-- ==== Sys2Proof/Word.lean ====
section
/-! DEFINITION. The word types of the AHMES core: 00_scope.md R6, R8, R9. -/

namespace Sys2Proof

/-- A data byte: AC, a memory cell, an opcode byte, an address operand (R6: data and address width 8). -/
abbrev Byte := BitVec 8

/-- The program counter's word. R24 holds PC as a 9-bit value in the range 0 to 256. -/
abbrev PcWord := BitVec 9

/-- `s8(v)` of R9: the two's-complement reading of an 8-bit value. -/
def s8 (v : Byte) : Int :=
  if v.toNat < 128 then (v.toNat : Int) else (v.toNat : Int) - 256

end Sys2Proof
end

