-- ==== Sys2Proof/Syntax.lean ====
section
/-! DEFINITION. The instructions: one constructor per row of spec/opcode_table.json. -/

namespace Sys2Proof

/-- A decoded instruction (30_encoding.md R70, R72, R81). The only operand is the 8-bit absolute address
`a` of the two-byte form. The ignored bits of an opcode byte select no variant (R80), so they are not kept.
The two UNMAPPED rows keep the whole opcode byte, which the trace's `Unmapped` record shows (R233; log 11). -/
inductive Instr where
  | nop
  | sta (a : Byte)
  | lda (a : Byte)
  | add (a : Byte)
  | or (a : Byte)
  | and (a : Byte)
  | not
  | sub (a : Byte)
  | jmp (a : Byte)
  | jn (a : Byte)
  | jp (a : Byte)
  | jv (a : Byte)
  | jnv (a : Byte)
  | jz (a : Byte)
  | jnz (a : Byte)
  | jc (a : Byte)
  | jnc (a : Byte)
  | jb (a : Byte)
  | jnb (a : Byte)
  | shr
  | shl
  | ror
  | rol
  | hlt
  /-- The table's UNMAPPED row 0xA8 to 0xAF (R78). -/
  | unmappedA8 (op : Byte)
  /-- The table's UNMAPPED row 0xC0 to 0xDF (R78). -/
  | unmappedC0 (op : Byte)
  deriving DecidableEq, Repr

end Sys2Proof
end

