-- ==== Sys2Proof/WellFormed.lean ====
section
/-! DEFINITION. Which terms of `Instr` stand for an encoding. -/

namespace Sys2Proof

/-- An UNMAPPED term must carry a byte of its own row (30_encoding.md R78); every address byte is legal
for every two-byte form (R81, R55), so no other term can be ill-formed. -/
def Instr.wellFormed : Instr → Bool
  | .unmappedA8 op => decide (0xA8 ≤ op.toNat) && decide (op.toNat ≤ 0xAF)
  | .unmappedC0 op => decide (0xC0 ≤ op.toNat) && decide (op.toNat ≤ 0xDF)
  | .nop | .not | .shr | .shl | .ror | .rol | .hlt => true
  | .sta _ | .lda _ | .add _ | .or _ | .and _ | .sub _ | .jmp _ => true
  | .jn _ | .jp _ | .jv _ | .jnv _ | .jz _ | .jnz _ | .jc _ | .jnc _ | .jb _ | .jnb _ => true

end Sys2Proof
end

