-- ==== Sys2Proof/Decode.lean ====
section
/-! DEFINITION. The opcode decoder, total on any bytes, and after it the encoder: 30_encoding.md. -/

namespace Sys2Proof

/-- The 24 opcode classes in the source's order, and the decoder's one more outcome UNMAPPED (R72). -/
inductive OpClass where
  | nop | sta | lda | add | or | and | not | sub | jmp
  | jn | jp | jv | jnv | jz | jnz | jc | jnc | jb | jnb
  | shr | shl | ror | rol | hlt | unmapped
  deriving DecidableEq, Repr

/-- The entry of a four-element table that `q = op[3:2]` selects (R79). -/
def pickBand (q : Nat) (c0 c1 c2 c3 : OpClass) : OpClass :=
  if q = 0 then c0 else if q = 1 then c1 else if q = 2 then c2 else c3

/-- `decode` of R79: the class of an opcode byte. Every byte has one (R82). The bands other than those of
0, 32, 48 and 240 are the spec's own decisions (D1 to D5): UNVERIFIED, unsafe: logs 8 and 9. -/
def classify (op : Byte) : OpClass :=
  let hi := op.toNat / 16
  let q := op.toNat / 4 % 4
  if hi = 0 then .nop
  else if hi = 1 then .sta
  else if hi = 2 then .lda
  else if hi = 3 then .add
  else if hi = 4 then .or
  else if hi = 5 then .and
  else if hi = 6 then .not
  else if hi = 7 then .sub
  else if hi = 8 then .jmp
  else if hi = 15 then .hlt
  else if hi = 9 then pickBand q .jn .jp .jv .jnv
  else if hi = 10 then pickBand q .jz .jnz .unmapped .unmapped
  else if hi = 11 then pickBand q .jc .jnc .jb .jnb
  else if hi = 14 then pickBand q .shr .shl .ror .rol
  else .unmapped

/-- The length in bytes, which the class alone determines (R71). -/
def OpClass.length : OpClass → Nat
  | .nop | .not | .shr | .shl | .ror | .rol | .hlt | .unmapped => 1
  | .sta | .lda | .add | .or | .and | .sub | .jmp => 2
  | .jn | .jp | .jv | .jnv | .jz | .jnz | .jc | .jnc | .jb | .jnb => 2

/-- Why a list of bytes holds no whole instruction. Neither is a property of an encoding: no encoding is
illegal (R82). -/
inductive DecodeError where
  /-- There is no byte at all. -/
  | noOpcode
  /-- A two-byte class whose operand byte is not there (R104). -/
  | missingOperand (cls : OpClass)
  deriving DecidableEq, Repr

/-- Format F2 (R70): the operand is the byte after the opcode byte. -/
def takeOperand (cls : OpClass) (mk : Byte → Instr) : List Byte → Except DecodeError (Instr × List Byte)
  | [] => .error (.missingOperand cls)
  | a :: rest => .ok (mk a, rest)

/-- The table row of an UNMAPPED byte: 0xA8 to 0xAF or 0xC0 to 0xDF (R78). -/
def unmappedRow (op : Byte) : Instr :=
  if op.toNat < 0xC0 then .unmappedA8 op else .unmappedC0 op

/-- The instruction at the head of a list of bytes, and the bytes after it (R70, R71, R79). -/
def decode : List Byte → Except DecodeError (Instr × List Byte)
  | [] => .error .noOpcode
  | op :: rest =>
    match classify op with
    | .nop => .ok (.nop, rest)
    | .sta => takeOperand .sta .sta rest
    | .lda => takeOperand .lda .lda rest
    | .add => takeOperand .add .add rest
    | .or => takeOperand .or .or rest
    | .and => takeOperand .and .and rest
    | .not => .ok (.not, rest)
    | .sub => takeOperand .sub .sub rest
    | .jmp => takeOperand .jmp .jmp rest
    | .jn => takeOperand .jn .jn rest
    | .jp => takeOperand .jp .jp rest
    | .jv => takeOperand .jv .jv rest
    | .jnv => takeOperand .jnv .jnv rest
    | .jz => takeOperand .jz .jz rest
    | .jnz => takeOperand .jnz .jnz rest
    | .jc => takeOperand .jc .jc rest
    | .jnc => takeOperand .jnc .jnc rest
    | .jb => takeOperand .jb .jb rest
    | .jnb => takeOperand .jnb .jnb rest
    | .shr => .ok (.shr, rest)
    | .shl => .ok (.shl, rest)
    | .ror => .ok (.ror, rest)
    | .rol => .ok (.rol, rest)
    | .hlt => .ok (.hlt, rest)
    | .unmapped => .ok (unmappedRow op, rest)

/-- The class of a decoded instruction (R72). -/
def Instr.cls : Instr → OpClass
  | .nop => .nop
  | .sta _ => .sta
  | .lda _ => .lda
  | .add _ => .add
  | .or _ => .or
  | .and _ => .and
  | .not => .not
  | .sub _ => .sub
  | .jmp _ => .jmp
  | .jn _ => .jn
  | .jp _ => .jp
  | .jv _ => .jv
  | .jnv _ => .jnv
  | .jz _ => .jz
  | .jnz _ => .jnz
  | .jc _ => .jc
  | .jnc _ => .jnc
  | .jb _ => .jb
  | .jnb _ => .jnb
  | .shr => .shr
  | .shl => .shl
  | .ror => .ror
  | .rol => .rol
  | .hlt => .hlt
  | .unmappedA8 _ => .unmapped
  | .unmappedC0 _ => .unmapped

/-- The canonical encoding (R80): the class's base value of R86, then the operand byte of a two-byte form
(R70). An UNMAPPED term is its own byte: UNMAPPED is no mnemonic and has no base value (R84). -/
def encode : Instr → List Byte
  | .nop => [0]
  | .sta a => [16, a]
  | .lda a => [32, a]
  | .add a => [48, a]
  | .or a => [64, a]
  | .and a => [80, a]
  | .not => [96]
  | .sub a => [112, a]
  | .jmp a => [128, a]
  | .jn a => [144, a]
  | .jp a => [148, a]
  | .jv a => [152, a]
  | .jnv a => [156, a]
  | .jz a => [160, a]
  | .jnz a => [164, a]
  | .jc a => [176, a]
  | .jnc a => [180, a]
  | .jb a => [184, a]
  | .jnb a => [188, a]
  | .shr => [224]
  | .shl => [228]
  | .ror => [232]
  | .rol => [236]
  | .hlt => [240]
  | .unmappedA8 op => [op]
  | .unmappedC0 op => [op]

/-- The two bytes of a table word of `nbits` bits: bits 7..0 are the first byte, bits 15..8 the second, and
every bit from `nbits` on is 0. Two bytes are the longest instruction (R83). -/
def tableBytes (nbits w : Nat) : List Byte :=
  [BitVec.ofNat 8 (w % 2 ^ nbits), BitVec.ofNat 8 (w % 2 ^ nbits / 256)]

/-- The instruction the decoder reads from a word of spec/opcode_table.json. -/
def decodeTableWord (nbits w : Nat) : Option Instr :=
  match decode (tableBytes nbits w) with
  | .ok (i, _) => some i
  | .error _ => none

end Sys2Proof
end

