-- ==== Sys2Proof/Machine/State.lean ====
section
/-! DEFINITION. The machine's state as plain data, its stop reasons, and the state after reset: 10_state.md. -/

namespace Sys2Proof.Machine

/-- The sequencer state `State` of R30. -/
inductive RunState where
  /-- RUN: the core fetches and executes. -/
  | run
  /-- HALTED: a HLT was executed (R111). -/
  | halted
  /-- OFFEND: PC passed address 255 without a HLT (R106). -/
  | offend
  /-- OPFAULT: a two-byte opcode was fetched at address 255 (R104). -/
  | opfault
  deriving DecidableEq, Repr

/-- A record of the event output (R40). The source gives the records no content; the spec's decision D17
does: UNVERIFIED, log 14. -/
inductive Event where
  /-- `Step(pc, op, cls)` of R232: the PC before the step, the opcode byte, the decoded class. -/
  | step (pc : PcWord) (op : Byte) (cls : OpClass)
  /-- `Unmapped(pc, op)` of R233. -/
  | unmapped (pc : PcWord) (op : Byte)
  deriving DecidableEq, Repr

/-- Memory as a list of (address, byte) cells, in the canonical form that `Memory.wf` names: addresses
strictly rising and below 256, no entry equal to what an unlisted address reads as. -/
abbrev Memory := List Host.Cell

/-- The architectural state of R20, and the event output of R40. -/
structure State where
  /-- PC, the address of the next opcode byte; 9 bits, 0 to 256 (R24). -/
  pc : PcWord
  /-- AC, the accumulator (R21). -/
  ac : Byte
  /-- N, negative (R27). -/
  n : Bool
  /-- Z, zero (R27). -/
  z : Bool
  /-- V, overflow (R27). -/
  v : Bool
  /-- C, carry (R27). -/
  c : Bool
  /-- B, borrow (R27). -/
  b : Bool
  /-- The sequencer state `State` (R30). -/
  run : RunState
  /-- Mem[0..255] (20_memory.md R50). -/
  mem : Memory
  /-- The records emitted so far, oldest first (R40, R232). The MODEL's own field: output that no rule
  reads. DESIGN CHOICE, safe: log 3. -/
  trace : List Event
  deriving DecidableEq, Repr

/-- The reasons the machine stops with a fault. -/
inductive Fault where
  /-- Raised by `step` alone: a fetch with State RUN and PC above 255, where no cell exists (R50). R31 says
  this never holds and no run reaches it. Safe: a claim must rule such states out. Log 6. -/
  | pcOutOfRange
  deriving DecidableEq, Repr

/-- The reasons a step is refused. -/
inductive Refusal where
  /-- Raised only by an arm of `exec` whose instruction has no meaning yet. Safe. No arm raises it. -/
  | notModelled (mnemonic : String)
  deriving DecidableEq, Repr

/-- The machine right after reset (R35, R240), for the image whose 256 bytes are all 0. The spec gives
memory no reset value of its own: it is the image (R242), and `State.resetWith` is the reset of any image.
The choice of the all-zero image is a DESIGN CHOICE, unsafe: log 1. -/
def State.reset : State where
  pc := 0
  ac := 0
  n := false
  z := false
  v := false
  c := false
  b := false
  run := .run
  mem := []
  trace := []

end Sys2Proof.Machine
end

