-- ==== Sys2Proof/Machine/Ops.lean ====
section
/-! DEFINITION. The named operations over memory, registers, flags, the trace and the sequencer state.

The core has no exception and no trap (60_exceptions.md R220, R226, R227), so there is no exception entry and
no return here; the stop outcomes that take their place (R225) are `State.goTo`, `State.halt` and
`State.enterOpFault`. -/

namespace Sys2Proof.Machine

/-! ### Memory (20_memory.md) -/

/-- What an address that the cell list does not name reads as. Every image gives all 256 bytes (R35), so
this is a matter of representation; for the image of `State.reset` it is a DESIGN CHOICE, unsafe: log 1. -/
def unlistedByte : Byte := 0

/-- `MemRead(addr, 1)` of R11, for addresses 0 to 255. -/
def Memory.read : Memory → Nat → Byte
  | [], _ => unlistedByte
  | (k, x) :: m, a => if k = a then x else Memory.read m a

/-- `MemWrite(addr, 1, v)` of R11, keeping the canonical form. -/
def Memory.write : Memory → Nat → Byte → Memory
  | [], a, x => if x = unlistedByte then [] else [(a, x)]
  | (k, y) :: m, a, x =>
    if a < k then
      if x = unlistedByte then (k, y) :: m else (a, x) :: (k, y) :: m
    else if a = k then
      if x = unlistedByte then m else (a, x) :: m
    else (k, y) :: Memory.write m a x

/-- The canonical form from address `lo` on. -/
def Memory.wfFrom : Nat → Memory → Bool
  | _, [] => true
  | lo, (k, x) :: m => decide (lo ≤ k) && decide (k < 256) && decide (x ≠ unlistedByte) && Memory.wfFrom (k + 1) m

/-- The canonical form: addresses strictly rising, all below 256 (R50), no entry that reads as unlisted. -/
def Memory.wf (m : Memory) : Bool := Memory.wfFrom 0 m

/-- The cells of a list of bytes laid out from address `k` up. -/
def Memory.ofBytes : Nat → List Byte → Memory
  | _, [] => []
  | k, x :: xs => if x = unlistedByte then Memory.ofBytes (k + 1) xs else (k, x) :: Memory.ofBytes (k + 1) xs

/-- The memory that holds exactly a memory image (R35, R240; the image type is R14's "256-byte array"). -/
def Memory.ofImage (image : Vector Byte 256) : Memory := Memory.ofBytes 0 image.toList

/-- The 256 cells in address order, as an image (R41, R262: the full memory dump). -/
def Memory.dump (m : Memory) : Vector Byte 256 := Vector.ofFn fun k => m.read k.val

/-! ### Registers, flags, trace -/

/-- `AC <- r`. -/
def State.setAc (s : State) (r : Byte) : State := { s with ac := r }

/-- `V <- x`. -/
def State.setV (s : State) (x : Bool) : State := { s with v := x }

/-- `C <- x`. -/
def State.setC (s : State) (x : Bool) : State := { s with c := x }

/-- `B <- x`. -/
def State.setB (s : State) (x : Bool) : State := { s with b := x }

/-- `N <- nf; Z <- zf`: N and Z are always written together (the table of R28). -/
def State.setNZ (s : State) (nf zf : Bool) : State := { s with n := nf, z := zf }

/-- `MemRead(a, 1)` at a data address, which an operand byte always keeps in range (R52). -/
def State.load (s : State) (a : Byte) : Byte := s.mem.read a.toNat

/-- `MemWrite(a, 1, x)` at a data address (R51, R52). -/
def State.store (s : State) (a : Byte) (x : Byte) : State := { s with mem := s.mem.write a.toNat x }

/-- `emit` of R12: append a record to the trace. -/
def State.emit (s : State) (e : Event) : State := { s with trace := s.trace ++ [e] }

/-! ### The sequencer (40_sequencer.md) -/

/-- `PC + k`, not reduced mod 256 (R106). -/
def State.pcPlus (s : State) (k : Nat) : PcWord := BitVec.ofNat 9 (s.pc.toNat + k)

/-- State after the PC becomes `next`: OFFEND when that is 256, else as it was (R100, R106). -/
def runAfter (r : RunState) (next : PcWord) : RunState :=
  if next.toNat = 256 then .offend else r

/-- `PC <- next`, entering OFFEND when the next PC is 256 (R100, R106). -/
def State.goTo (s : State) (next : PcWord) : State :=
  { s with pc := next, run := runAfter s.run next }

/-- The stop of HLT (R100, R111): PC one past it and HALTED, also when that PC is 256 (R108). -/
def State.halt (s : State) : State := { s with pc := s.pcPlus 1, run := .halted }

/-- The stop of R104: State becomes OPFAULT and nothing else changes. The spec calls OPFAULT a fault for
modelling purposes (R223) and gives it a state with everything kept (R235): it is a next state here, and
`goneWrong` in Safety.lean. DEDUCED, safe: log 4. -/
def State.enterOpFault (s : State) : State := { s with run := .opfault }

/-- `reset(image)` of R40 and R240. -/
def State.resetWith (image : Vector Byte 256) : State :=
  { State.reset with mem := Memory.ofImage image }

end Sys2Proof.Machine
end

