-- ==== Sys2Proof/Machine/Operands.lean ====
section
/-! DEFINITION. The operand forms: none (F1) and the direct 8-bit address (F2), 30_encoding.md R81, with the
PC advance of each form (40_sequencer.md R105, R114). -/

namespace Sys2Proof.Machine

/-- The data operand of STA, LDA, ADD, OR, AND and SUB: the cell at the operand address (R81). -/
def dataOperand (a : Byte) (s : State) : Byte := s.load a

/-- The jump target: the operand byte as an absolute address (R81, R182). -/
def jumpTarget (a : Byte) : PcWord := a.setWidth 9

/-- The end of a one-byte form: `next <- PC + 1` (R114). -/
def State.finishOneByte (s : State) : State := s.goTo (s.pcPlus 1)

/-- The end of a two-byte form that does not branch: `next <- PC + 2` (R114). -/
def State.finishTwoByte (s : State) : State := s.goTo (s.pcPlus 2)

/-- A one-byte form: its effect, then the advance. It reads no operand (R103). -/
def oneByteForm (effect : State) : Host.Outcome State Fault Refusal := .next effect.finishOneByte

/-- A two-byte form whose effect leads to `after`: at PC = 255 its operand does not exist, and the step
stops in OPFAULT before any effect (R104, R225). Log 12 says how this relates to `step`. -/
def twoByteForm (s after : State) : Host.Outcome State Fault Refusal :=
  .next (if s.pc.toNat < 255 then after else s.enterOpFault)

/-- Every jump's shape (43_control.md R170, R171): to the target if the condition holds, else fall
through. The operand is there to be read whether or not the jump is taken (R103). -/
def jumpIf (cond : Bool) (a : Byte) (s : State) : Host.Outcome State Fault Refusal :=
  twoByteForm s (s.goTo (if cond then jumpTarget a else s.pcPlus 2))

end Sys2Proof.Machine
end

