-- ==== Sys2Proof/Machine/Flags.lean ====
section
/-! DEFINITION. The ALU's results and every flag computation: 42_alu.md, 44_shift_rotate.md. -/

namespace Sys2Proof.Machine

/-- Bit 7, the sign bit (00_scope.md R8). -/
def bit7 (r : Byte) : Bool := r.getLsbD 7

/-- Bit 0 (00_scope.md R8). -/
def bit0 (r : Byte) : Bool := r.getLsbD 0

/-- The Z function of R141: r = 0. -/
def isZero (r : Byte) : Bool := decide (r = 0)

/-- `nz(r)` of R141: N is bit 7 of r, Z is r = 0. -/
def State.setNZOf (s : State) (r : Byte) : State := s.setNZ (bit7 r) (isZero r)

/-- `AC <- r` with the N and Z of r: the end of every class that "Sets N, Z" (R141). -/
def State.setAcNZ (s : State) (r : Byte) : State := (s.setAc r).setNZOf r

/-- The exact sum of ADD, 0 to 510 (R143). -/
def addSum (x y : Byte) : Nat := x.toNat + y.toNat

/-- `u8(sum)` (R143). -/
def addResult (x y : Byte) : Byte := BitVec.ofNat 8 (addSum x y)

/-- V of ADD: operand signs alike, result sign differs (R143). Computed apart from C (R142). -/
def addOverflow (x y : Byte) : Bool := (bit7 x == bit7 y) && (bit7 (addResult x y) != bit7 x)

/-- C of ADD: bit 8 of the unmasked sum (R143). -/
def addCarry (x y : Byte) : Bool := (addSum x y).testBit 8

/-- The exact difference of SUB, -255 to 255 (R147). -/
def subDiff (x y : Byte) : Int := (x.toNat : Int) - (y.toNat : Int)

/-- `u8(diff)` (R147). -/
def subResult (x y : Byte) : Byte := BitVec.ofInt 8 (subDiff x y)

/-- V of SUB: operand signs differ, result sign differs from AC's (R147). Computed apart from B (R142). -/
def subOverflow (x y : Byte) : Bool := (bit7 x != bit7 y) && (bit7 (subResult x y) != bit7 x)

/-- B of SUB: the unmasked difference is negative (R147). -/
def subBorrow (x y : Byte) : Bool := decide (subDiff x y < 0)

/-- SHR's result: bit 7 filled with 0 (R191). -/
def shrResult (x : Byte) : Byte := x >>> 1

/-- SHL's result: bit 0 filled with 0 (R192). -/
def shlResult (x : Byte) : Byte := x <<< 1

/-- ROR's result: the old carry shifted into bit 7 (R193). -/
def rorResult (c0 : Bool) (x : Byte) : Byte := (x >>> 1) ||| ((BitVec.ofBool c0).setWidth 8 <<< 7)

/-- ROL's result: the old carry shifted into bit 0 (R194). -/
def rolResult (c0 : Bool) (x : Byte) : Byte := (x <<< 1) ||| (BitVec.ofBool c0).setWidth 8

/-- The write-back of ROR and ROL: AC and C, and N and Z too only under `ROTATE_SETS_NZ` (R198). -/
def State.setRotated (s : State) (setsNZ : Bool) (r : Byte) (carry : Bool) : State :=
  if setsNZ then (s.setC carry).setAcNZ r else (s.setC carry).setAc r

end Sys2Proof.Machine
end

