-- ==== Sys2Proof/Machine/Alu.lean ====
section
/-! DEFINITION. ADD, OR, AND, NOT and SUB: 42_alu.md. -/

namespace Sys2Proof.Machine

/-- ADD (R143): writes AC, N, Z, V and C, never B. -/
def execAdd (a : Byte) (s : State) : Host.Outcome State Fault Refusal :=
  let x := dataOperand a s
  twoByteForm s
    (((s.setV (addOverflow s.ac x)).setC (addCarry s.ac x)).setAcNZ (addResult s.ac x)).finishTwoByte

/-- OR (R144). -/
def execOr (a : Byte) (s : State) : Host.Outcome State Fault Refusal :=
  twoByteForm s (s.setAcNZ (s.ac ||| dataOperand a s)).finishTwoByte

/-- AND (R145). -/
def execAnd (a : Byte) (s : State) : Host.Outcome State Fault Refusal :=
  twoByteForm s (s.setAcNZ (s.ac &&& dataOperand a s)).finishTwoByte

/-- NOT (R146). -/
def execNot (s : State) : Host.Outcome State Fault Refusal :=
  oneByteForm (s.setAcNZ (~~~s.ac))

/-- SUB (R147): writes AC, N, Z, V and B, never C. -/
def execSub (a : Byte) (s : State) : Host.Outcome State Fault Refusal :=
  let x := dataOperand a s
  twoByteForm s
    (((s.setV (subOverflow s.ac x)).setB (subBorrow s.ac x)).setAcNZ (subResult s.ac x)).finishTwoByte

end Sys2Proof.Machine
end

