-- ==== Sys2Proof/Machine/Control.lean ====
section
/-! DEFINITION. JMP and the ten conditional jumps: 43_control.md. -/

namespace Sys2Proof.Machine

/-- JMP (R170). -/
def execJmp (a : Byte) (s : State) : Host.Outcome State Fault Refusal := jumpIf true a s

/-- JN (R172): taken if N = 1. -/
def execJn (a : Byte) (s : State) : Host.Outcome State Fault Refusal := jumpIf s.n a s

/-- JP (R173): taken if N = 0. -/
def execJp (a : Byte) (s : State) : Host.Outcome State Fault Refusal := jumpIf (!s.n) a s

/-- JV (R174): taken if V = 1. -/
def execJv (a : Byte) (s : State) : Host.Outcome State Fault Refusal := jumpIf s.v a s

/-- JNV (R175): taken if V = 0. -/
def execJnv (a : Byte) (s : State) : Host.Outcome State Fault Refusal := jumpIf (!s.v) a s

/-- JZ (R176): taken if Z = 1. -/
def execJz (a : Byte) (s : State) : Host.Outcome State Fault Refusal := jumpIf s.z a s

/-- JNZ (R177): taken if Z = 0. -/
def execJnz (a : Byte) (s : State) : Host.Outcome State Fault Refusal := jumpIf (!s.z) a s

/-- JC (R178): taken if C = 1. -/
def execJc (a : Byte) (s : State) : Host.Outcome State Fault Refusal := jumpIf s.c a s

/-- JNC (R179): taken if C = 0. -/
def execJnc (a : Byte) (s : State) : Host.Outcome State Fault Refusal := jumpIf (!s.c) a s

/-- JB (R180): taken if B = 1. -/
def execJb (a : Byte) (s : State) : Host.Outcome State Fault Refusal := jumpIf s.b a s

/-- JNB (R181): taken if B = 0. -/
def execJnb (a : Byte) (s : State) : Host.Outcome State Fault Refusal := jumpIf (!s.b) a s

end Sys2Proof.Machine
end

