-- ==== Sys2Proof/Machine/LoadStore.lean ====
section
/-! DEFINITION. STA and LDA: 41_load_store.md. -/

namespace Sys2Proof.Machine

/-- STA (R130): `Mem[a] <- AC`. No flag changes. -/
def execSta (a : Byte) (s : State) : Host.Outcome State Fault Refusal :=
  twoByteForm s (s.store a s.ac).finishTwoByte

/-- LDA (R131): `AC <- Mem[a]`, with N and Z. -/
def execLda (a : Byte) (s : State) : Host.Outcome State Fault Refusal :=
  twoByteForm s (s.setAcNZ (dataOperand a s)).finishTwoByte

end Sys2Proof.Machine
end

