-- ==== Sys2Proof/Machine/Sequencer.lean ====
section
/-! DEFINITION. NOP, HLT and the unmapped bytes, and the parts of one step: 40_sequencer.md. -/

namespace Sys2Proof.Machine

/-- NOP (R110). -/
def execNop (s : State) : Host.Outcome State Fault Refusal := oneByteForm s

/-- HLT (R111). The spec's bands make every byte 240 to 255 a HLT (D2): log 9. -/
def execHlt (s : State) : Host.Outcome State Fault Refusal := .next s.halt

/-- An unmapped byte of the row 0xA8 to 0xAF (R112): a one-byte no-op that is logged. -/
def execUnmappedA8 (op : Byte) (s : State) : Host.Outcome State Fault Refusal :=
  oneByteForm (s.emit (.unmapped s.pc op))

/-- An unmapped byte of the row 0xC0 to 0xDF (R112): a one-byte no-op that is logged. -/
def execUnmappedC0 (op : Byte) (s : State) : Host.Outcome State Fault Refusal :=
  oneByteForm (s.emit (.unmapped s.pc op))

/-- The opcode byte of the step, `MemRead(PC, 1)` (R101). -/
def State.opcode (s : State) : Byte := s.mem.read s.pc.toNat

/-- The operand byte at PC + 1, where that address exists (R103, R104). -/
def State.operandBytes (s : State) : List Byte :=
  if s.pc.toNat < 255 then [s.mem.read (s.pc.toNat + 1)] else []

/-- The bytes a step fetches: the opcode byte, and for a two-byte class the operand byte too (R100, R103). -/
def State.fetchBytes (s : State) : List Byte :=
  if s.pc.toNat < 256 then
    s.opcode :: (if (classify s.opcode).length = 2 then s.operandBytes else [])
  else []

/-- The fetch and decode of a step (R101 to R103). -/
def State.fetch (s : State) : Except DecodeError Instr :=
  match decode s.fetchBytes with
  | .ok (i, _) => .ok i
  | .error e => .error e

/-- `emit Step(PC, op, cls)` (R100, R232). -/
def State.recordStep (s : State) : State := s.emit (.step s.pc s.opcode (classify s.opcode))

/-- A step whose fetch gives no instruction: OPFAULT for a missing operand (R104). With no opcode byte PC is
above 255, where no cell exists: log 6. -/
def stepUnfetched (e : DecodeError) (s : State) : Host.Outcome State Fault Refusal :=
  match e with
  | .missingOperand _ => .next s.recordStep.enterOpFault
  | .noOpcode => .fault .pcOutOfRange

/-- `step()` in a terminal state does nothing (10_state.md R31, R40; log 5). -/
def stepTerminal (s : State) : Host.Outcome State Fault Refusal := .next s

/-- The memory with the bytes `xs` laid from address `k` up, those past 255 left out. -/
def Memory.place (m : Memory) : Nat → List Byte → Memory
  | _, [] => m
  | k, x :: xs => if k < 256 then Memory.place (m.write k x) (k + 1) xs else m

end Sys2Proof.Machine
end

