-- ==== Sys2Proof/Config.lean ====
section
/-! DEFINITION. What the hardware fixes as a parameter: 00_scope.md R7. -/

namespace Sys2Proof

/-- `ROTATE_SETS_NZ` (R7, R198): whether ROR and ROL rewrite N and Z. The spec fixes it at `false` for
this hardware (its decision D7, the source being silent). UNVERIFIED, unsafe: log 7. -/
def Config.rotateSetsNZ : Bool := false

end Sys2Proof
end

