-- ==== Sys2Proof/Machine/ShiftRotate.lean ====
section
/-! DEFINITION. SHR, SHL, ROR and ROL: 44_shift_rotate.md. -/

namespace Sys2Proof.Machine

/-- SHR (R191): C is the old bit 0. -/
def execShr (s : State) : Host.Outcome State Fault Refusal :=
  oneByteForm ((s.setC (bit0 s.ac)).setAcNZ (shrResult s.ac))

/-- SHL (R192): C is the old bit 7. -/
def execShl (s : State) : Host.Outcome State Fault Refusal :=
  oneByteForm ((s.setC (bit7 s.ac)).setAcNZ (shlResult s.ac))

/-- ROR (R193, R198): through the carry; C is the old bit 0. -/
def execRor (s : State) : Host.Outcome State Fault Refusal :=
  oneByteForm (s.setRotated Config.rotateSetsNZ (rorResult s.c s.ac) (bit0 s.ac))

/-- ROL (R194, R198): through the carry; C is the old bit 7. -/
def execRol (s : State) : Host.Outcome State Fault Refusal :=
  oneByteForm (s.setRotated Config.rotateSetsNZ (rolResult s.c s.ac) (bit7 s.ac))

end Sys2Proof.Machine
end

