-- ==== Sys2Proof/Machine/Dispatch.lean ====
section
/-! DEFINITION. One arm per instruction: `execute` of 40_sequencer.md R100 and R105. -/

namespace Sys2Proof.Machine

def exec (i : Instr) (s : State) : Host.Outcome State Fault Refusal :=
  match i with
  | .nop => Sys2Proof.Machine.execNop s
  | .sta a => Sys2Proof.Machine.execSta a s
  | .lda a => Sys2Proof.Machine.execLda a s
  | .add a => Sys2Proof.Machine.execAdd a s
  | .or a => Sys2Proof.Machine.execOr a s
  | .and a => Sys2Proof.Machine.execAnd a s
  | .not => Sys2Proof.Machine.execNot s
  | .sub a => Sys2Proof.Machine.execSub a s
  | .jmp a => Sys2Proof.Machine.execJmp a s
  | .jn a => Sys2Proof.Machine.execJn a s
  | .jp a => Sys2Proof.Machine.execJp a s
  | .jv a => Sys2Proof.Machine.execJv a s
  | .jnv a => Sys2Proof.Machine.execJnv a s
  | .jz a => Sys2Proof.Machine.execJz a s
  | .jnz a => Sys2Proof.Machine.execJnz a s
  | .jc a => Sys2Proof.Machine.execJc a s
  | .jnc a => Sys2Proof.Machine.execJnc a s
  | .jb a => Sys2Proof.Machine.execJb a s
  | .jnb a => Sys2Proof.Machine.execJnb a s
  | .shr => Sys2Proof.Machine.execShr s
  | .shl => Sys2Proof.Machine.execShl s
  | .ror => Sys2Proof.Machine.execRor s
  | .rol => Sys2Proof.Machine.execRol s
  | .hlt => Sys2Proof.Machine.execHlt s
  | .unmappedA8 op => Sys2Proof.Machine.execUnmappedA8 op s
  | .unmappedC0 op => Sys2Proof.Machine.execUnmappedC0 op s

end Sys2Proof.Machine
end

