-- ==== Sys2Proof/Machine/Step.lean ====
section
/-! DEFINITION. One step of the machine: 40_sequencer.md R100, 10_state.md R40. -/

namespace Sys2Proof.Machine

/-- `step()` (R40, R100). While State is RUN: fetch, decode, emit the Step record, execute. Otherwise
nothing. -/
def step (s : State) : Host.Outcome State Fault Refusal :=
  match s.run with
  | .run =>
    match s.fetch with
    | .ok i => exec i s.recordStep
    | .error e => stepUnfetched e s
  | .halted => stepTerminal s
  | .offend => stepTerminal s
  | .opfault => stepTerminal s

/-- `s` with an instruction's bytes stored at PC, where a running core fetches next. It stands for the
host's loading of the image (R240): log 2. -/
def State.withFetchWord (s : State) (nbits w : Nat) : State :=
  { s with mem := s.mem.place s.pc.toNat (tableBytes nbits w) }

end Sys2Proof.Machine
end

