-- ==== Sys2Proof/Machine/Builder.lean ====
section
/-! DEFINITION. The host side of the boot interface: the Memory Image Builder and the image file,
70_reset_and_hazards.md R250 to R258.

Outside the core (00_scope.md R5): no rule of the core depends on this file, and `State.resetWith` takes the
256-byte image alone. What the spec leaves OPEN as the host parameter `Loader` (D23) is an argument here, so
that nothing is chosen for it: log 16. -/

namespace Sys2Proof.Machine

/-- The 256-byte memory image (00_scope.md R14). -/
abbrev Image := Vector Byte 256

/-- A run of non-blank characters of a line. -/
abbrev Token := List Char

/-- The open host parameter `Loader` (D23, I7). -/
structure Loader where
  /-- The integer syntax: what a token parses to, if it is an integer. -/
  parseInt : Token → Option Int
  /-- The byte written for an operand outside 0 to 255, if one is. -/
  outOfRangeOperand : Int → Option Byte

/-- The tokens of a line, given the characters (last first) of the token being read (R251). -/
def tokensFrom : Token → List Char → List Token
  | acc, [] => if acc = [] then [] else [acc.reverse]
  | acc, ch :: rest =>
    if ch.isWhitespace then
      if acc = [] then tokensFrom [] rest else acc.reverse :: tokensFrom [] rest
    else tokensFrom (ch :: acc) rest

/-- Tokenizing on runs of whitespace (R251). -/
def tokens (line : List Char) : List Token := tokensFrom [] line

/-- Upper case of one letter. Only the 26 letters matter: the mnemonics hold no other. -/
def upperChar (ch : Char) : Char :=
  if 97 ≤ ch.toNat ∧ ch.toNat ≤ 122 then Char.ofNat (ch.toNat - 32) else ch

/-- The mnemonic table (30_encoding.md R86), names in upper case (R84). -/
def mnemonicTable : List (Token × Byte) :=
  [(['N', 'O', 'P'], 0), (['S', 'T', 'A'], 16), (['L', 'D', 'A'], 32), (['A', 'D', 'D'], 48),
   (['O', 'R'], 64), (['A', 'N', 'D'], 80), (['N', 'O', 'T'], 96), (['S', 'U', 'B'], 112),
   (['J', 'M', 'P'], 128), (['J', 'N'], 144), (['J', 'P'], 148), (['J', 'V'], 152),
   (['J', 'N', 'V'], 156), (['J', 'Z'], 160), (['J', 'N', 'Z'], 164), (['J', 'C'], 176),
   (['J', 'N', 'C'], 180), (['J', 'B'], 184), (['J', 'N', 'B'], 188), (['S', 'H', 'R'], 224),
   (['S', 'H', 'L'], 228), (['R', 'O', 'R'], 232), (['R', 'O', 'L'], 236), (['H', 'L', 'T'], 240)]

/-- The base value of an upper-case mnemonic (R253). -/
def mnemonicBase (mn : Token) : Option Byte := mnemonicTable.lookup mn

/-- The three slots of the token scan (R252). -/
structure Slots where
  num : Option Byte
  mn : Option Token
  operand : Option Int
  deriving DecidableEq, Repr

/-- No slot filled. -/
def Slots.empty : Slots := { num := none, mn := none, operand := none }

/-- One turn of the token scan (R252). -/
def Slots.scan (L : Loader) (t : Slots) (tok : Token) : Slots :=
  match L.parseInt tok with
  | some k =>
    if t.num = none ∧ t.mn = none ∧ 0 ≤ k ∧ k ≤ 255 then { t with num := some (BitVec.ofInt 8 k) }
    else if (t.num ≠ none ∨ t.mn ≠ none) ∧ t.operand = none then { t with operand := some k }
    else t
  | none => if t.mn = none then { t with mn := some (tok.map upperChar) } else t

/-- Opcode resolution: a numeric opcode first, else the mnemonic's base value, else nothing (R253). -/
def Slots.opcode (t : Slots) : Option Byte :=
  match t.num with
  | some op => some op
  | none =>
    match t.mn with
    | some mn => mnemonicBase mn
    | none => none

/-- The classes of R255 that take no operand byte. UNMAPPED is not among them. -/
def dropsOperand : OpClass → Bool
  | .nop | .not | .shr | .shl | .ror | .rol | .hlt => true
  | .sta | .lda | .add | .or | .and | .sub | .jmp => false
  | .jn | .jp | .jv | .jnv | .jz | .jnz | .jc | .jnc | .jb | .jnb => false
  | .unmapped => false

/-- The operand's byte: itself from 0 to 255; outside, the `Loader` says (N10, D23). -/
def operandByte (L : Loader) (k : Int) : Option Byte :=
  if 0 ≤ k ∧ k ≤ 255 then some (BitVec.ofInt 8 k) else L.outOfRangeOperand k

/-- Opcode and operand writes of a line at address `k` (R254, R255); past 255 nothing is written. -/
def placeLine (L : Loader) (image : Image) (k : Nat) (t : Slots) : Image :=
  match t.opcode with
  | none => image
  | some op =>
    let image' := image.setIfInBounds k op
    if dropsOperand (classify op) then image'
    else
      match t.operand with
      | none => image'
      | some x =>
        match operandByte L x with
        | none => image'
        | some x' => image'.setIfInBounds (k + 1) x'

/-- One line: skipped if it has fewer than two tokens or no address in 0 to 255 (R251). -/
def buildLine (L : Loader) (image : Image) (line : List Char) : Image :=
  match tokens line with
  | [] => image
  | [_] => image
  | addr :: tok :: toks =>
    match L.parseInt addr with
    | none => image
    | some k =>
      if 0 ≤ k ∧ k ≤ 255 then placeLine L image k.toNat ((tok :: toks).foldl (Slots.scan L) Slots.empty)
      else image

/-- The builder: the lines in order over an all-zero image (R250). -/
def buildImage (L : Loader) (text : List (List Char)) : Image :=
  text.foldl (buildLine L) (Vector.replicate 256 0)

/-! ### The image as a file (R41, R258) -/

/-- The decimal digits of a byte. -/
def decimalLine (x : Byte) : List Char := Nat.toDigits 10 x.toNat

/-- 256 lines, each a decimal integer, one cell a line in address order (R258). -/
def imageFile (image : Image) : List (List Char) := image.toList.map decimalLine

/-- The value of a string of decimal digits. -/
def readDigits : Nat → List Char → Option Nat
  | n, [] => some n
  | n, ch :: rest => if ch.isDigit then readDigits (10 * n + (ch.toNat - 48)) rest else none

/-- A line that is a decimal integer from 0 to 255. -/
def readDecimalLine (line : List Char) : Option Byte :=
  if line = [] then none
  else
    match readDigits 0 line with
    | none => none
    | some n => if n < 256 then some (BitVec.ofNat 8 n) else none

/-- Reading the file back; a malformed file gives no image, and no run (I6; log 19). -/
def readImageFile (lines : List (List Char)) : Option Image :=
  match lines.mapM readDecimalLine with
  | none => none
  | some xs => if h : xs.length = 256 then some ⟨xs.toArray, by simpa using h⟩ else none

end Sys2Proof.Machine
end

