-- ==== Sys2Proof/Machine/Report.lean ====
section
/-! DEFINITION. What the host reads from a finished run: 70_reset_and_hazards.md R262, R263. -/

namespace Sys2Proof.Machine

/-- The sign/zero classification of AC (R263). -/
inductive AcClass where
  | negative | zero | positive
  deriving DecidableEq, Repr

/-- How the run ended (R31, R262). -/
inductive RunOutcome where
  /-- Reported as "halted via HLT". -/
  | halted
  /-- Reported as "ran off the end". -/
  | ranOff
  /-- Reported as neither (R31). -/
  | opFault
  deriving DecidableEq, Repr

/-- The fields the report must expose (R262). Its format is implementation-defined (I1) and is left to the
host: log 15. -/
structure Report where
  memory : Vector Byte 256
  pc : PcWord
  ac : Byte
  n : Bool
  z : Bool
  v : Bool
  c : Bool
  b : Bool
  acClass : AcClass
  outcome : RunOutcome
  deriving DecidableEq, Repr

/-- The classification is computed from AC's value, not from the flags (R263). -/
def classifyAc (ac : Byte) : AcClass :=
  if bit7 ac then .negative else if ac = 0 then .zero else .positive

/-- The outcome of a terminal state; none while running (R31). -/
def State.outcome (s : State) : Option RunOutcome :=
  match s.run with
  | .run => none
  | .halted => some .halted
  | .offend => some .ranOff
  | .opfault => some .opFault

/-- The report of a terminal state (R262). -/
def State.report (s : State) : Option Report :=
  match s.outcome with
  | none => none
  | some o => some
    { memory := s.mem.dump, pc := s.pc, ac := s.ac, n := s.n, z := s.z, v := s.v, c := s.c, b := s.b,
      acClass := classifyAc s.ac, outcome := o }

end Sys2Proof.Machine
end

