-- ==== Sys2Proof/Safety.lean ====
section
/-! DEFINITION. The words claims use: stop outcomes, runs, and the invariant of every state of a run. -/

namespace Sys2Proof.Machine

/-- HALTED, OFFEND and OPFAULT are terminal (10_state.md R31). -/
abbrev State.terminal (s : State) : Prop := s.run ≠ .run

/-- Reaching OPFAULT is "gone wrong": never an acceptable end of a claim (60_exceptions.md R223; log 4). -/
abbrev State.goneWrong (s : State) : Prop := s.run = .opfault

/-- What the states of a run keep:
PC is at most 256 (R24), at most 255 while running (R31), exactly 256 in OFFEND (R106), exactly 255 in
OPFAULT with a two-byte opcode there (R104, R223), one past a HLT in HALTED (R111), and memory is in its
canonical form. -/
structure State.Inv (s : State) : Prop where
  running : s.run = .run → s.pc.toNat ≤ 255
  halted : s.run = .halted → ∃ k, s.pc.toNat = k + 1 ∧ k ≤ 255 ∧ classify (s.mem.read k) = .hlt
  offend : s.run = .offend → s.pc = 256
  opfault : s.run = .opfault → s.pc = 255 ∧ (classify (s.mem.read 255)).length = 2
  memory : s.mem.wf = true

/-- The shape of a trace, given the PC and byte whose Unmapped record is due next, if one is. -/
def traceWfFrom : Option (PcWord × Byte) → List Event → Bool
  | none, [] => true
  | some _, [] => false
  | none, .step pc op cls :: rest =>
    decide (pc.toNat ≤ 255) && decide (cls = classify op) &&
      traceWfFrom (if cls = .unmapped then some (pc, op) else none) rest
  | none, .unmapped _ _ :: _ => false
  | some due, .unmapped pc op :: rest => decide (due = (pc, op)) && traceWfFrom none rest
  | some _, .step _ _ _ :: _ => false

/-- The shape of a trace (R232, R233): Step records whose PC is an address and whose class is that of their
opcode byte, each UNMAPPED one followed at once by the Unmapped record of the same PC and byte, and no other
Unmapped record. -/
def traceWf (tr : List Event) : Bool := traceWfFrom none tr

/-- `k` steps (10_state.md R40: `run()` is repeated `step()`). -/
def steps : Nat → State → Host.Outcome State Fault Refusal
  | 0, s => .next s
  | k + 1, s =>
    match step s with
    | .next t => steps k t
    | .fault r => .fault r
    | .refused r => .refused r

/-- Instructions executed one after another. -/
def execAll : List Instr → State → Host.Outcome State Fault Refusal
  | [], s => .next s
  | i :: is, s =>
    match exec i s with
    | .next t => execAll is t
    | .fault r => .fault r
    | .refused r => .refused r

end Sys2Proof.Machine
end

