-- ==== Sys2Proof/Certificates/Slice0/Obligations.lean ====
section
/-! DEFINITION. The statements for the provers. Each is about every state or every operand its premises name;
the rules are those of spec/. Where a rule carries one of the spec's own decisions (D<n>) the docstring says so. -/

open Sys2Proof Sys2Proof.Machine

namespace Sys2Proof.Claims

/-- The bands of 30_encoding.md R74 to R78, in their order: class, first and last byte, length in bytes. The
values other than 0, 32, 48 and 240 are the spec's own decisions D1 to D5 (logs 8 and 9). -/
def bandTable : List (OpClass × Nat × Nat × Nat) :=
  [(.nop, 0, 15, 1), (.sta, 16, 31, 2), (.lda, 32, 47, 2), (.add, 48, 63, 2), (.or, 64, 79, 2),
   (.and, 80, 95, 2), (.not, 96, 111, 1), (.sub, 112, 127, 2), (.jmp, 128, 143, 2),
   (.jn, 144, 147, 2), (.jp, 148, 151, 2), (.jv, 152, 155, 2), (.jnv, 156, 159, 2),
   (.jz, 160, 163, 2), (.jnz, 164, 167, 2), (.jc, 176, 179, 2), (.jnc, 180, 183, 2),
   (.jb, 184, 187, 2), (.jnb, 188, 191, 2), (.shr, 224, 227, 1), (.shl, 228, 231, 1),
   (.ror, 232, 235, 1), (.rol, 236, 239, 1), (.hlt, 240, 255, 1),
   (.unmapped, 168, 175, 1), (.unmapped, 192, 223, 1)]

/-- The class of the opcode byte at PC (R101, R102). -/
def classAtPc (s : State) : OpClass := classify (s.mem.read s.pc.toNat)

/-- The byte after the one at PC (R103). -/
def operandAtPc (s : State) : Byte := s.mem.read (s.pc.toNat + 1)

/-- The bytes of an instruction at PC all exist: PC + length is at most 256 (R104, R106). -/
def Fits (i : Instr) (s : State) : Prop := s.pc.toNat + i.cls.length ≤ 256

/-- The state after advancing past a one-byte form from a PC of at most 255: OFFEND at 255 (R106). -/
def pastOneByte (s : State) : State :=
  { s with pc := s.pc + 1, run := if s.pc = 255 then .offend else s.run }

/-- The state after advancing past a two-byte form from a PC of at most 254: OFFEND at 254 (R106). -/
def pastTwoBytes (s : State) : State :=
  { s with pc := s.pc + 2, run := if s.pc = 254 then .offend else s.run }

/-- The rule of a one-byte instruction: every byte from `lo` to `hi` is its encoding whatever follows, and
wherever its byte can stand it executes to the next state of `effect`. -/
def OneByteRule (i : Instr) (lo hi : Nat) (effect : State → State) : Prop :=
  (∀ (op : Byte) (rest : List Byte), lo ≤ op.toNat → op.toNat ≤ hi → decode (op :: rest) = .ok (i, rest)) ∧
  (∀ s : State, s.pc.toNat ≤ 255 → exec i s = .next (effect s))

/-- The rule of a two-byte instruction with operand byte `a`: every first byte from `lo` to `hi` is its
encoding, the second byte is the operand, and wherever both can stand it executes to the next state of
`effect`. At 255, where the second cannot, it ends in OPFAULT with nothing else changed (R104, the spec's D9;
that the meaning itself says so is the model's choice, log 12). -/
def TwoByteRule (mk : Byte → Instr) (lo hi : Nat) (effect : Byte → State → State) : Prop :=
  (∀ (op a : Byte) (rest : List Byte), lo ≤ op.toNat → op.toNat ≤ hi →
    decode (op :: a :: rest) = .ok (mk a, rest)) ∧
  (∀ (a : Byte) (s : State), s.pc.toNat ≤ 254 → exec (mk a) s = .next (effect a s)) ∧
  (∀ (a : Byte) (s : State), s.pc = 255 → exec (mk a) s = .next { s with run := .opfault })

/-- The rule of a conditional jump (R171): to the operand address, or past the jump; nothing else. -/
def JumpRule (mk : Byte → Instr) (lo hi : Nat) (cond : State → Bool) : Prop :=
  TwoByteRule mk lo hi fun a s =>
    if cond s then { s with pc := BitVec.ofNat 9 a.toNat } else pastTwoBytes s

/-- Which flags a class writes: the table of R28, as (N, Z, V, C, B). -/
def flagsWritten : OpClass → Bool × Bool × Bool × Bool × Bool
  | .lda | .or | .and | .not => (true, true, false, false, false)
  | .add => (true, true, true, true, false)
  | .sub => (true, true, true, false, true)
  | .shr | .shl => (true, true, false, true, false)
  | .ror | .rol => (false, false, false, true, false)
  | .nop | .sta | .jmp | .hlt | .unmapped => (false, false, false, false, false)
  | .jn | .jp | .jv | .jnv | .jz | .jnz | .jc | .jnc | .jb | .jnb => (false, false, false, false, false)

/-- Whether the jump of a class is taken; none for a class that does not jump (R170, R172 to R181). -/
def jumpTaken (s : State) : OpClass → Option Bool
  | .jmp => some true
  | .jn => some s.n
  | .jp => some (!s.n)
  | .jv => some s.v
  | .jnv => some (!s.v)
  | .jz => some s.z
  | .jnz => some (!s.z)
  | .jc => some s.c
  | .jnc => some (!s.c)
  | .jb => some s.b
  | .jnb => some (!s.b)
  | .nop | .sta | .lda | .add | .or | .and | .not | .sub | .shr | .shl | .ror | .rol | .hlt | .unmapped => none

/-- The nine-bit value of C above AC (R195). -/
def ring (s : State) : BitVec 9 := BitVec.ofBool s.c ++ s.ac

end Sys2Proof.Claims

open Sys2Proof.Claims

/-! ### Reset and the host interface -/

/-- R240, R35: reset copies the image into memory, zeroes PC, AC and the five flags, and sets RUN. -/
def Obligations.ResetCopiesTheImageAndZeroesTheRest : Prop :=
  ∀ image : Vector Byte 256,
    (∀ (k : Nat) (h : k < 256), (State.resetWith image).mem.read k = image[k]) ∧
    (State.resetWith image).pc = 0 ∧ (State.resetWith image).ac = 0 ∧
    (State.resetWith image).n = false ∧ (State.resetWith image).z = false ∧
    (State.resetWith image).v = false ∧ (State.resetWith image).c = false ∧
    (State.resetWith image).b = false ∧ (State.resetWith image).run = .run

/-- The model's choice (log 1): the reset that takes no image is the reset of the all-zero image. -/
def Obligations.PlainResetIsTheZeroImageReset : Prop :=
  State.reset = State.resetWith (Vector.replicate 256 0)

/-- Every reset meets the invariant, and the model's trace (log 3) starts well formed. -/
def Obligations.EveryResetMeetsTheInvariant : Prop :=
  State.reset.Inv ∧ ∀ image : Vector Byte 256,
    (State.resetWith image).Inv ∧ traceWf (State.resetWith image).trace = true

/-- R262, R263 (with the spec's decision D20): a running state has no report; a terminal one's report holds
all 256 cells, PC, AC, the flags, the outcome, and a class of AC taken from AC's value alone. -/
def Obligations.ReportShowsTheFinalState : Prop :=
  ∀ s : State,
    (s.run = .run → s.report = none) ∧
    (s.run ≠ .run → ∃ r : Report, s.report = some r ∧
      (∀ (k : Nat) (h : k < 256), r.memory[k] = s.mem.read k) ∧ r.pc = s.pc ∧ r.ac = s.ac ∧
      r.n = s.n ∧ r.z = s.z ∧ r.v = s.v ∧ r.c = s.c ∧ r.b = s.b ∧
      (r.outcome = .halted ↔ s.run = .halted) ∧ (r.outcome = .ranOff ↔ s.run = .offend) ∧
      (r.outcome = .opFault ↔ s.run = .opfault) ∧
      (r.acClass = .negative ↔ 128 ≤ s.ac.toNat) ∧ (r.acClass = .zero ↔ s.ac.toNat = 0) ∧
      (r.acClass = .positive ↔ 1 ≤ s.ac.toNat ∧ s.ac.toNat ≤ 127))

/-- The image file has exactly 256 lines, line k the decimal integer of cell k (R258), and reading it back gives
the image, byte for byte. The reader `readImageFile` is the model's: log 16 (DESIGN CHOICE) fixes which lines it
accepts, log 19 (DEDUCED) that a malformed file gives no image; the third clause rests on them, not on a rule. -/
def Obligations.ImageFileRoundTrip : Prop :=
  ∀ image : Image,
    (imageFile image).length = 256 ∧
    (∀ (k : Nat) (h : k < 256), (imageFile image)[k]? = some (Nat.toDigits 10 image[k].toNat)) ∧
    readImageFile (imageFile image) = some image

/-- R253 to R257: a line of an address in 0 to 255, a mnemonic in any case and an operand in 0 to 255 writes
the mnemonic's base value at the address; the operand goes to the next address if there is one and the class
takes one; every other cell is kept. Outside the core (R5); the scan order is the spec's decision D23. -/
def Obligations.BuilderPlacesAMnemonicLine : Prop :=
  ∀ (L : Loader) (image : Image) (line addr mn opd : Token) (k x : Nat) (base : Byte),
    tokens line = [addr, mn, opd] → L.parseInt addr = some (k : Int) → k ≤ 255 →
    L.parseInt mn = none → mnemonicBase (mn.map upperChar) = some base →
    L.parseInt opd = some (x : Int) → x ≤ 255 →
    ∀ (j : Nat) (h : j < 256), (buildLine L image line)[j] =
      if j = k then base
      else if j = k + 1 ∧ (classify base).length = 2 then BitVec.ofNat 8 x
      else image[j]

/-- R250, R251, R256: a line with fewer than two tokens, or without an integer address from 0 to 255, changes
nothing, and a cell no line assigns is 0. Outside the core (R5). -/
def Obligations.BuilderSkipsMalformedLines : Prop :=
  ∀ (L : Loader) (image : Image) (line : List Char),
    ((tokens line).length < 2 → buildLine L image line = image) ∧
    (∀ addr, (tokens line).head? = some addr → (∀ k : Int, L.parseInt addr = some k → k < 0 ∨ 255 < k) →
      buildLine L image line = image) ∧
    (∀ (j : Nat) (h : j < 256), (buildImage L [])[j] = 0)

/-! ### Encoding -/

/-- Decode and encode agree: for every well-formed instruction, with every operand, whatever bytes follow. -/
def Obligations.DecodeOfEncodeIsTheInstruction : Prop :=
  ∀ (i : Instr) (rest : List Byte), i.wellFormed = true → decode (encode i ++ rest) = .ok (i, rest)

/-- R80: what decodes is well formed, has the class of its first byte, and encodes back to the same bytes but
for the first, which becomes the canonical byte, the lowest of its band (the same byte if it is unmapped). -/
def Obligations.DecodedBytesEncodeToTheCanonicalForm : Prop :=
  ∀ (op : Byte) (tl : List Byte) (i : Instr) (rest : List Byte), decode (op :: tl) = .ok (i, rest) →
    i.wellFormed = true ∧ i.cls = classify op ∧
    ∃ canon : Byte, encode i ++ rest = canon :: tl ∧ classify canon = classify op ∧
      (classify op = .unmapped → canon = op) ∧
      (classify op ≠ .unmapped → ∀ op' : Byte, classify op' = classify op → canon.toNat ≤ op'.toNat)

/-- R74 to R79 (with the spec's decisions D1 to D5): a byte has a class exactly if it lies in a band of that
class, the class has the band's length, and every byte lies in exactly one band. -/
def Obligations.EveryByteHasTheClassOfItsBand : Prop :=
  (∀ op : Byte, ∀ row ∈ bandTable,
    row.2.1 ≤ op.toNat ∧ op.toNat ≤ row.2.2.1 → classify op = row.1 ∧ row.1.length = row.2.2.2) ∧
  (∀ op : Byte, (bandTable.filter fun row => decide (row.2.1 ≤ op.toNat ∧ op.toNat ≤ row.2.2.1)).length = 1)

/-- R71, R82, R83: every byte begins an instruction of its class. The class alone says whether one byte is
taken or two; a decode fails only where a two-byte class has no second byte. -/
def Obligations.FirstByteFixesLengthAndNothingIsIllegal : Prop :=
  (∀ cls : OpClass, cls.length = 1 ↔
    cls ∈ [OpClass.nop, .not, .shr, .shl, .ror, .rol, .hlt, .unmapped]) ∧
  (∀ cls : OpClass, cls.length = 2 ↔
    cls ∈ [OpClass.sta, .lda, .add, .or, .and, .sub, .jmp, .jn, .jp, .jv, .jnv, .jz, .jnz, .jc, .jnc, .jb, .jnb]) ∧
  (∀ (op : Byte) (tl : List Byte), (classify op).length = 1 →
    ∃ i, decode (op :: tl) = .ok (i, tl) ∧ i.cls = classify op) ∧
  (∀ (op a : Byte) (tl : List Byte), (classify op).length = 2 →
    ∃ i, decode (op :: a :: tl) = .ok (i, tl) ∧ i.cls = classify op) ∧
  (∀ op : Byte, (classify op).length = 2 → decode [op] = .error (.missingOperand (classify op)))

/-- Words written out from the bit patterns of R74 to R78, one of each family, decode to what they stand
for. -/
def Obligations.WrittenOutWordsDecode : Prop :=
  decode [0b00100001#8, 10] = .ok (.lda 10, []) ∧ decode [0b00110000#8, 100] = .ok (.add 100, []) ∧
  decode [0b01101111#8] = .ok (.not, []) ∧ decode [0b10000000#8, 0] = .ok (.jmp 0, []) ∧
  decode [0b10110110#8, 12] = .ok (.jnc 12, []) ∧ decode [0b11101001#8] = .ok (.ror, []) ∧
  decode [0b11110000#8] = .ok (.hlt, []) ∧ decode [0b11001000#8] = .ok (.unmappedC0 200, [])

/-! ### The step -/

/-- R100 to R103: when State is RUN and the bytes at PC (two of them below 255, one at 255) decode to i, a
step records `Step(pc, op, cls)` and executes i. -/
def Obligations.StepRunsTheDecodedInstruction : Prop :=
  ∀ (s : State) (i : Instr) (rest : List Byte), s.run = .run →
    (s.pc.toNat ≤ 254 ∧ decode [s.mem.read s.pc.toNat, operandAtPc s] = .ok (i, rest)) ∨
      (s.pc = 255 ∧ decode [s.mem.read 255] = .ok (i, rest)) →
    i.wellFormed = true ∧
    step s = exec i { s with trace := s.trace ++ [.step s.pc (s.mem.read s.pc.toNat) (classAtPc s)] }

/-- R31, R40 (the spec's decision D18): no number of steps leaves or changes a terminal state. -/
def Obligations.TerminalStatesAreNeverLeft : Prop :=
  ∀ (s : State) (k : Nat), s.run ≠ .run → steps k s = .next s

/-- R104 (the spec's decision D9): a two-byte class fetched at 255 takes the step to OPFAULT and changes
nothing else but the trace, whatever the flags say; and from there no step changes anything. -/
def Obligations.TwoByteOpcodeAtTheLastAddressEntersOpfault : Prop :=
  ∀ (s : State) (k : Nat), s.run = .run → s.pc = 255 → (classAtPc s).length = 2 →
    steps (k + 1) s = .next { s with
      run := .opfault, trace := s.trace ++ [.step 255 (s.mem.read 255) (classAtPc s)] }

/-- The state invariant of R31, with the final PCs of R24, R104, R106 and R111, is kept by every step from
every state that has it. -/
def Obligations.EveryStepKeepsTheInvariant : Prop :=
  ∀ s t : State, s.Inv → step s = .next t → t.Inv

/-- R16, R236: from every state with the invariant, a run of any length goes on to a next state with the
invariant: no fault, no refusal. -/
def Obligations.NoRunIsEverAborted : Prop :=
  ∀ (k : Nat) (s : State), s.Inv → ∃ t, steps k s = .next t ∧ t.Inv

/-- R100, R106, R108, R111, R113, R225: the three stops. OPFAULT is entered exactly by a two-byte class at
255, HALTED exactly by HLT, OFFEND exactly when the next PC is 256 and the class is not HLT. -/
def Obligations.StepStopsExactlyAsTheSequencerSays : Prop :=
  ∀ s : State, s.run = .run → s.pc.toNat ≤ 255 → ∃ t, step s = .next t ∧
    (t.run = .opfault ↔ (classAtPc s).length = 2 ∧ s.pc = 255) ∧
    (t.run = .halted ↔ classAtPc s = .hlt) ∧
    (t.run = .offend ↔ t.pc = 256 ∧ classAtPc s ≠ .hlt)

/-- R25, R105, R114: the next PC. One more for a one-byte class, two more for a two-byte class that does not
branch, the operand for a taken jump; unchanged in OPFAULT. -/
def Obligations.NextPcFollowsTheClass : Prop :=
  ∀ s : State, s.run = .run → s.pc.toNat ≤ 255 → ∃ t, step s = .next t ∧
    ((classAtPc s).length = 1 → t.pc.toNat = s.pc.toNat + 1) ∧
    ((classAtPc s).length = 2 → s.pc = 255 → t.pc = s.pc) ∧
    ((classAtPc s).length = 2 → s.pc.toNat ≤ 254 →
      t.pc.toNat = if jumpTaken s (classAtPc s) = some true then (operandAtPc s).toNat else s.pc.toNat + 2)

/-- R232, R233 (the spec's decision D17): one Step record a step, and after it an Unmapped record exactly for
an unmapped byte. -/
def Obligations.EveryStepIsRecorded : Prop :=
  ∀ s : State, s.run = .run → s.pc.toNat ≤ 255 → ∃ t, step s = .next t ∧
    t.trace = s.trace ++ .step s.pc (s.mem.read s.pc.toNat) (classAtPc s) ::
      (if classAtPc s = .unmapped then [.unmapped s.pc (s.mem.read s.pc.toNat)] else [])

/-- A trace made by steps stays well formed: every record as R232 and R233 shape it. -/
def Obligations.EveryStepKeepsTheTraceWellFormed : Prop :=
  ∀ s t : State, traceWf s.trace = true → step s = .next t → traceWf t.trace = true

/-- R232: the trace is output only. Whatever records a state already holds, a step does the same to all the
rest and appends the same records. -/
def Obligations.NoStepReadsTheTrace : Prop :=
  ∀ (s t : State) (tr : List Event), step s = .next t → ∃ new : List Event,
    t.trace = s.trace ++ new ∧ step { s with trace := tr } = .next { t with trace := tr ++ new }

/-- R110 (bytes 0 to 15 by D1): NOP changes nothing but the PC; at 255 the run ends in OFFEND. -/
def Obligations.NopOnlyAdvances : Prop := OneByteRule .nop 0 15 pastOneByte

/-- R111, R108 (bytes 241 to 255 by D2, PC 256 at 255 by D10): HLT stops the run one past itself, HALTED also
at 255. -/
def Obligations.HltHalts : Prop :=
  OneByteRule .hlt 240 255 fun s => { s with pc := s.pc + 1, run := .halted }

/-- R112, R233 (the bytes by D5, the record by D17): an unmapped byte of either row is logged and advances
the PC, nothing else. -/
def Obligations.UnmappedBytesAreLoggedNoOps : Prop :=
  (∀ op : Byte, 168 ≤ op.toNat → op.toNat ≤ 175 → OneByteRule (.unmappedA8 op) op.toNat op.toNat fun s =>
    pastOneByte { s with trace := s.trace ++ [.unmapped s.pc op] }) ∧
  (∀ op : Byte, 192 ≤ op.toNat → op.toNat ≤ 223 → OneByteRule (.unmappedC0 op) op.toNat op.toNat fun s =>
    pastOneByte { s with trace := s.trace ++ [.unmapped s.pc op] })

/-- R116 made general: from any running state whose bytes from PC to 255 are all NOPs, 256 - PC steps end in
OFFEND with PC 256, and AC, the flags and every cell as they were. -/
def Obligations.NopsToTheEndRunOff : Prop :=
  ∀ s : State, s.run = .run → s.pc.toNat ≤ 255 →
    (∀ k, s.pc.toNat ≤ k → k ≤ 255 → classify (s.mem.read k) = .nop) →
    ∃ tr, steps (256 - s.pc.toNat) s = .next { s with pc := 256, run := .offend, trace := tr }

/-- R115: a jump to its own address, unconditional or taken, never ends: after any number of steps the state
is the same but for the trace, which has one more record a step. -/
def Obligations.JumpToItselfNeverEnds : Prop :=
  ∀ (s : State) (k : Nat), s.run = .run → s.pc.toNat ≤ 254 →
    jumpTaken s (classAtPc s) = some true → (operandAtPc s).toNat = s.pc.toNat →
    steps k s = .next { s with
      trace := s.trace ++ List.replicate k (.step s.pc (s.mem.read s.pc.toNat) (classAtPc s)) }

/-! ### Loads and stores -/

/-- R130, R53 (bytes 16 to 31 by D1): STA writes AC to the operand's cell and to no other, and changes no
register or flag but the PC; at 255 it ends in OPFAULT with nothing written. -/
def Obligations.StaStoresTheAccumulator : Prop :=
  (∀ (op a : Byte) (rest : List Byte), 16 ≤ op.toNat → op.toNat ≤ 31 →
    decode (op :: a :: rest) = .ok (.sta a, rest)) ∧
  (∀ (a : Byte) (s : State), s.mem.wf = true → s.pc.toNat ≤ 254 → ∃ m : Memory,
    exec (.sta a) s = .next (pastTwoBytes { s with mem := m }) ∧ m.wf = true ∧
    ∀ k : Nat, m.read k = if k = a.toNat then s.ac else s.mem.read k) ∧
  (∀ (a : Byte) (s : State), s.pc = 255 → exec (.sta a) s = .next { s with run := .opfault })

/-- R131 (bytes 33 to 47 by D1): LDA copies the operand's cell to AC, N and Z describe it, V, C, B and memory
are kept. -/
def Obligations.LdaLoadsTheAccumulator : Prop :=
  TwoByteRule .lda 32 47 fun a s =>
    let r := s.mem.read a.toNat
    pastTwoBytes { s with ac := r, n := decide (128 ≤ r.toNat), z := decide (r.toNat = 0) }

/-- R132: LDA x then STA y copies the byte at x to y; AC holds it, N and Z describe it, V, C and B are those
from before the pair. -/
def Obligations.LdaThenStaCopiesAByte : Prop :=
  ∀ (x y : Byte) (s : State), s.mem.wf = true → s.pc.toNat ≤ 252 → ∃ t,
    execAll [.lda x, .sta y] s = .next t ∧
    (∀ k : Nat, t.mem.read k = if k = y.toNat then s.mem.read x.toNat else s.mem.read k) ∧
    t.ac = s.mem.read x.toNat ∧ t.n = decide (128 ≤ t.ac.toNat) ∧ t.z = decide (t.ac = 0) ∧
    t.v = s.v ∧ t.c = s.c ∧ t.b = s.b ∧ t.pc.toNat = s.pc.toNat + 4

/-- R51: a step changes a cell only if it is a STA, only the cell its operand names, and only to AC. -/
def Obligations.OnlyStaWritesMemory : Prop :=
  ∀ (s t : State) (k : Nat), s.mem.wf = true → step s = .next t → t.mem.read k ≠ s.mem.read k →
    s.run = .run ∧ s.pc.toNat ≤ 254 ∧ classAtPc s = .sta ∧ k = (operandAtPc s).toNat ∧ t.mem.read k = s.ac

/-- R60, R63, R271: a STA over the next instruction's opcode byte is seen by the very next step, which records
and runs the stored byte; the STA itself is unaffected where it overwrites its own bytes. -/
def Obligations.StoredCodeIsFetchedByTheNextStep : Prop :=
  ∀ s : State, s.mem.wf = true → s.run = .run → s.pc.toNat ≤ 253 → classAtPc s = .sta →
    ∃ t, step s = .next t ∧ t.run = .run ∧ t.pc.toNat = s.pc.toNat + 2 ∧
      t.mem.read (operandAtPc s).toNat = s.ac ∧
      ((operandAtPc s).toNat = s.pc.toNat + 2 → classAtPc t = classify s.ac ∧
        ∃ u, step t = .next u ∧ (.step t.pc s.ac (classify s.ac) : Event) ∈ u.trace ∧
          (u.run = .halted ↔ classify s.ac = .hlt))

/-! ### ALU -/

/-- R143: ADD. The result is the sum mod 256, C bit 8 of the unmasked sum, V by the operand and result sign
bits, N and Z of the result; B and all else kept. -/
def Obligations.AddWritesSumAndFlags : Prop :=
  TwoByteRule .add 48 63 fun a s =>
    let x := s.mem.read a.toNat
    let r := (s.ac.toNat + x.toNat) % 256
    pastTwoBytes { s with
      ac := BitVec.ofNat 8 r
      n := decide (128 ≤ r)
      z := decide (r = 0)
      v := decide ((128 ≤ s.ac.toNat ↔ 128 ≤ x.toNat) ∧ ¬ (128 ≤ r ↔ 128 ≤ s.ac.toNat))
      c := decide ((s.ac.toNat + x.toNat) / 256 = 1) }

/-- R144, R145 (bytes by D1): OR and AND, bit by bit, with N and Z of the result; V, C, B and all else kept. -/
def Obligations.OrAndAreBitwise : Prop :=
  TwoByteRule .or 64 79 (fun a s =>
    let r : Byte := BitVec.ofNat 8 (s.ac.toNat ||| (s.mem.read a.toNat).toNat)
    pastTwoBytes { s with ac := r, n := decide (128 ≤ r.toNat), z := decide (r.toNat = 0) }) ∧
  TwoByteRule .and 80 95 (fun a s =>
    let r : Byte := BitVec.ofNat 8 (s.ac.toNat &&& (s.mem.read a.toNat).toNat)
    pastTwoBytes { s with ac := r, n := decide (128 ≤ r.toNat), z := decide (r.toNat = 0) })

/-- R146 (bytes by D1): NOT gives 255 - AC, with N and Z of it; V, C, B and all else kept. -/
def Obligations.NotComplements : Prop :=
  OneByteRule .not 96 111 fun s =>
    let r := 255 - s.ac.toNat
    pastOneByte { s with ac := BitVec.ofNat 8 r, n := decide (128 ≤ r), z := decide (r = 0) }

/-- R147 (bytes by D1): SUB. The result is the difference mod 256, B says that it was negative, V goes by the
operand and result sign bits, N and Z are the result's; C and all else kept. -/
def Obligations.SubWritesDifferenceAndFlags : Prop :=
  TwoByteRule .sub 112 127 fun a s =>
    let x := s.mem.read a.toNat
    let r := (s.ac.toNat + 256 - x.toNat) % 256
    pastTwoBytes { s with
      ac := BitVec.ofNat 8 r
      n := decide (128 ≤ r)
      z := decide (r = 0)
      v := decide (¬ (128 ≤ s.ac.toNat ↔ 128 ≤ x.toNat) ∧ ¬ (128 ≤ r ↔ 128 ≤ s.ac.toNat))
      b := decide (s.ac.toNat < x.toNat) }

/-- R149: V after ADD and SUB says exactly that the signed result is out of range. -/
def Obligations.OverflowIsSignedOverflow : Prop :=
  ∀ (a : Byte) (s : State), s.pc.toNat ≤ 254 →
    (∃ t, exec (.add a) s = .next t ∧
      (t.v = true ↔ s8 s.ac + s8 (s.mem.read a.toNat) < -128 ∨ 127 < s8 s.ac + s8 (s.mem.read a.toNat))) ∧
    (∃ t, exec (.sub a) s = .next t ∧
      (t.v = true ↔ s8 s.ac - s8 (s.mem.read a.toNat) < -128 ∨ 127 < s8 s.ac - s8 (s.mem.read a.toNat)))

/-- R150: C after ADD is the unsigned carry; B after SUB is AC < operand, the complement of the carry out of
AC + ~operand + 1. -/
def Obligations.CarryAndBorrowAreUnsigned : Prop :=
  ∀ (a : Byte) (s : State), s.pc.toNat ≤ 254 →
    (∃ t, exec (.add a) s = .next t ∧ (t.c = true ↔ 256 ≤ s.ac.toNat + (s.mem.read a.toNat).toNat)) ∧
    (∃ t, exec (.sub a) s = .next t ∧ (t.b = true ↔ s.ac.toNat < (s.mem.read a.toNat).toNat) ∧
      (t.b = false ↔ 256 ≤ s.ac.toNat + (~~~(s.mem.read a.toNat)).toNat + 1))

/-- R148: ADD and SUB wrap mod 256 in the unsigned and in the two's-complement reading alike. -/
def Obligations.AddAndSubWrapInBothReadings : Prop :=
  ∀ (a : Byte) (s : State), s.pc.toNat ≤ 254 →
    (∃ t, exec (.add a) s = .next t ∧ t.ac.toNat = (s.ac.toNat + (s.mem.read a.toNat).toNat) % 256 ∧
      (s8 t.ac - (s8 s.ac + s8 (s.mem.read a.toNat))) % 256 = 0) ∧
    (∃ t, exec (.sub a) s = .next t ∧
      (t.ac.toNat : Int) = ((s.ac.toNat : Int) - ((s.mem.read a.toNat).toNat : Int)) % 256 ∧
      (s8 t.ac - (s8 s.ac - s8 (s.mem.read a.toNat))) % 256 = 0)

/-- R141: every instruction that sets N and Z leaves N as bit 7 of the new AC and Z as AC = 0. -/
def Obligations.NegativeAndZeroDescribeTheNewAccumulator : Prop :=
  ∀ (i : Instr) (s : State), (flagsWritten i.cls).1 = true → Fits i s →
    ∃ t, exec i s = .next t ∧ t.n = t.ac.getLsbD 7 ∧ (t.z = true ↔ t.ac = 0)

/-- R184: after SUB, Z is equality, B the unsigned less-than, N xor V the signed less-than; and JZ and JB go by
them. -/
def Obligations.CompareBySubtracting : Prop :=
  ∀ (a x y : Byte) (s : State), s.pc.toNat ≤ 252 → ∃ t,
    exec (.sub a) s = .next t ∧
    (t.z = true ↔ s.ac = s.mem.read a.toNat) ∧
    (t.b = true ↔ s.ac.toNat < (s.mem.read a.toNat).toNat) ∧
    ((t.n ^^ t.v) = true ↔ s8 s.ac < s8 (s.mem.read a.toNat)) ∧
    (∃ u, exec (.jz x) t = .next u ∧
      u.pc.toNat = if s.ac = s.mem.read a.toNat then x.toNat else s.pc.toNat + 4) ∧
    (∃ u, exec (.jb y) t = .next u ∧
      u.pc.toNat = if s.ac.toNat < (s.mem.read a.toNat).toNat then y.toNat else s.pc.toNat + 4)

/-! ### Registers and flags across all instructions -/

/-- R28 (its ROR and ROL rows by D7): a flag outside the class's row of the table is unchanged, and a flag in
it is recomputed in full: where PC, AC and memory agree, the new flag is the same whatever the old flags. -/
def Obligations.FlagsChangeOnlyByTheTable : Prop :=
  (∀ (i : Instr) (s t : State), exec i s = .next t →
    ((flagsWritten i.cls).1 = false → t.n = s.n) ∧ ((flagsWritten i.cls).2.1 = false → t.z = s.z) ∧
    ((flagsWritten i.cls).2.2.1 = false → t.v = s.v) ∧ ((flagsWritten i.cls).2.2.2.1 = false → t.c = s.c) ∧
    ((flagsWritten i.cls).2.2.2.2 = false → t.b = s.b)) ∧
  (∀ (i : Instr) (s s' t t' : State), Fits i s → s'.pc = s.pc → s'.ac = s.ac → s'.mem = s.mem →
    exec i s = .next t → exec i s' = .next t' →
    ((flagsWritten i.cls).1 = true → t'.n = t.n) ∧ ((flagsWritten i.cls).2.1 = true → t'.z = t.z) ∧
    ((flagsWritten i.cls).2.2.1 = true → t'.v = t.v) ∧ ((flagsWritten i.cls).2.2.2.1 = true → t'.c = t.c) ∧
    ((flagsWritten i.cls).2.2.2.2 = true → t'.b = t.b))

/-- R22: NOP, HLT, the jumps and the unmapped bytes neither read nor write AC; STA does not write it; LDA does
not read it. -/
def Obligations.AccumulatorUsersAreTheListedOnes : Prop :=
  (∀ (i : Instr) (s t : State) (x : Byte),
    i.cls ∈ [OpClass.nop, .hlt, .unmapped, .jmp, .jn, .jp, .jv, .jnv, .jz, .jnz, .jc, .jnc, .jb, .jnb] →
    exec i s = .next t → t.ac = s.ac ∧ exec i { s with ac := x } = .next { t with ac := x }) ∧
  (∀ (a : Byte) (s t : State), exec (.sta a) s = .next t → t.ac = s.ac) ∧
  (∀ (a x : Byte) (s : State), s.pc.toNat ≤ 254 → exec (.lda a) { s with ac := x } = exec (.lda a) s)

/-- R26: no instruction reads PC as data: run from any other PC where it fits, it writes the same AC, flags
and memory. -/
def Obligations.PcIsNeverReadAsData : Prop :=
  ∀ (i : Instr) (s t : State) (p : PcWord), Fits i s → Fits i { s with pc := p } → exec i s = .next t →
    ∃ t', exec i { s with pc := p } = .next t' ∧ t'.ac = t.ac ∧ t'.n = t.n ∧ t'.z = t.z ∧ t'.v = t.v ∧
      t'.c = t.c ∧ t'.b = t.b ∧ t'.mem = t.mem

/-! ### Jumps -/

/-- R170, R182 (bytes by D1): JMP goes to its operand, any address, and changes nothing else. -/
def Obligations.JmpGoesToItsOperand : Prop :=
  TwoByteRule .jmp 128 143 fun a s => { s with pc := BitVec.ofNat 9 a.toNat }

/-- R171 to R181 (bytes by D3): each conditional jump tests its one flag, goes to its operand or falls
through, and changes nothing else. -/
def Obligations.ConditionalJumpsTestTheirFlag : Prop :=
  JumpRule .jn 144 147 (fun s => s.n) ∧ JumpRule .jp 148 151 (fun s => !s.n) ∧
  JumpRule .jv 152 155 (fun s => s.v) ∧ JumpRule .jnv 156 159 (fun s => !s.v) ∧
  JumpRule .jz 160 163 (fun s => s.z) ∧ JumpRule .jnz 164 167 (fun s => !s.z) ∧
  JumpRule .jc 176 179 (fun s => s.c) ∧ JumpRule .jnc 180 183 (fun s => !s.c) ∧
  JumpRule .jb 184 187 (fun s => s.b) ∧ JumpRule .jnb 188 191 (fun s => !s.b)

/-! ### Shifts and rotates -/

/-- R191 (bytes by D4): SHR halves AC, C is the old bit 0, N is 0, Z of the result; V, B and all else kept. -/
def Obligations.ShrShiftsRight : Prop :=
  OneByteRule .shr 224 227 fun s =>
    pastOneByte { s with
      ac := BitVec.ofNat 8 (s.ac.toNat / 2)
      c := decide (s.ac.toNat % 2 = 1)
      n := false
      z := decide (s.ac.toNat / 2 = 0) }

/-- R192 (bytes by D4): SHL doubles AC mod 256, C is the old bit 7, N and Z of the result; V, B and all else
kept. -/
def Obligations.ShlShiftsLeft : Prop :=
  OneByteRule .shl 228 231 fun s =>
    let r := 2 * s.ac.toNat % 256
    pastOneByte { s with
      ac := BitVec.ofNat 8 r, c := decide (128 ≤ s.ac.toNat), n := decide (128 ≤ r), z := decide (r = 0) }

/-- R193, R194, R198 (bytes by D4, N and Z unwritten by D7): ROR and ROL move the old carry into AC and the
bit that leaves AC into C, and write nothing else. -/
def Obligations.RotatesGoThroughTheCarry : Prop :=
  OneByteRule .ror 232 235 (fun s => pastOneByte { s with
    ac := BitVec.ofNat 8 (s.ac.toNat / 2 + 128 * s.c.toNat), c := decide (s.ac.toNat % 2 = 1) }) ∧
  OneByteRule .rol 236 239 (fun s => pastOneByte { s with
    ac := BitVec.ofNat 8 (2 * s.ac.toNat % 256 + s.c.toNat), c := decide (128 ≤ s.ac.toNat) })

/-- R7, R198 (the spec's decision D7): the parameter is false for this hardware; under true the write-back of
a rotate sets N and Z of the new AC as well, and the two readings differ in nothing else. -/
def Obligations.RotateParameterDecidesOnlyNAndZ : Prop :=
  Config.rotateSetsNZ = false ∧
  ∀ (s : State) (r : Byte) (carry : Bool),
    s.setRotated false r carry = { s with ac := r, c := carry } ∧
    s.setRotated true r carry =
      { s with ac := r, c := carry, n := decide (128 ≤ r.toNat), z := decide (r.toNat = 0) }

/-- R195: ROL and ROR rotate the nine-bit value of C above AC left and right, and nine of the same restore AC
and C. -/
def Obligations.RotatesTurnTheNineBitRing : Prop :=
  ∀ s : State,
    (s.pc.toNat ≤ 255 → ∃ t, exec .rol s = .next t ∧ ring t = (ring s).rotateLeft 1) ∧
    (s.pc.toNat ≤ 255 → ∃ t, exec .ror s = .next t ∧ ring t = (ring s).rotateRight 1) ∧
    (s.pc.toNat ≤ 247 → ∃ t, execAll (List.replicate 9 .rol) s = .next t ∧ t.ac = s.ac ∧ t.c = s.c) ∧
    (s.pc.toNat ≤ 247 → ∃ t, execAll (List.replicate 9 .ror) s = .next t ∧ t.ac = s.ac ∧ t.c = s.c)

/-- R196: ROL then ROR, and ROR then ROL, restore AC and C exactly, and leave N, Z, V and B alone. -/
def Obligations.RotatesUndoEachOther : Prop :=
  ∀ s : State, s.pc.toNat ≤ 254 →
    (∃ t, execAll [.rol, .ror] s = .next t ∧ t.ac = s.ac ∧ t.c = s.c ∧ t.n = s.n ∧ t.z = s.z ∧ t.v = s.v ∧
      t.b = s.b) ∧
    (∃ t, execAll [.ror, .rol] s = .next t ∧ t.ac = s.ac ∧ t.c = s.c ∧ t.n = s.n ∧ t.z = s.z ∧ t.v = s.v ∧
      t.b = s.b)

/-- R197: SHL then SHR keeps the low seven bits of AC, SHR then SHL the high seven; C ends 0 in both orders. -/
def Obligations.ShiftsAreNotInverses : Prop :=
  ∀ s : State, s.pc.toNat ≤ 254 →
    (∃ t, execAll [.shl, .shr] s = .next t ∧ t.ac = s.ac &&& 0x7F ∧ t.c = false) ∧
    (∃ t, execAll [.shr, .shl] s = .next t ∧ t.ac = s.ac &&& 0xFE ∧ t.c = false)
end

