-- ==== Sys2Proof/Laws/State.lean ====
section
/-! SUPPORT. One lemma per field per update of the state, so that no proof unfolds a record update. -/

namespace Sys2Proof.Machine

variable (s : State)

@[simp] theorem State.setAc_pc (r : Byte) : (s.setAc r).pc = s.pc := rfl
@[simp] theorem State.setAc_ac (r : Byte) : (s.setAc r).ac = r := rfl
@[simp] theorem State.setAc_n (r : Byte) : (s.setAc r).n = s.n := rfl
@[simp] theorem State.setAc_z (r : Byte) : (s.setAc r).z = s.z := rfl
@[simp] theorem State.setAc_v (r : Byte) : (s.setAc r).v = s.v := rfl
@[simp] theorem State.setAc_c (r : Byte) : (s.setAc r).c = s.c := rfl
@[simp] theorem State.setAc_b (r : Byte) : (s.setAc r).b = s.b := rfl
@[simp] theorem State.setAc_run (r : Byte) : (s.setAc r).run = s.run := rfl
@[simp] theorem State.setAc_mem (r : Byte) : (s.setAc r).mem = s.mem := rfl
@[simp] theorem State.setAc_trace (r : Byte) : (s.setAc r).trace = s.trace := rfl

@[simp] theorem State.setV_pc (x : Bool) : (s.setV x).pc = s.pc := rfl
@[simp] theorem State.setV_ac (x : Bool) : (s.setV x).ac = s.ac := rfl
@[simp] theorem State.setV_n (x : Bool) : (s.setV x).n = s.n := rfl
@[simp] theorem State.setV_z (x : Bool) : (s.setV x).z = s.z := rfl
@[simp] theorem State.setV_v (x : Bool) : (s.setV x).v = x := rfl
@[simp] theorem State.setV_c (x : Bool) : (s.setV x).c = s.c := rfl
@[simp] theorem State.setV_b (x : Bool) : (s.setV x).b = s.b := rfl
@[simp] theorem State.setV_run (x : Bool) : (s.setV x).run = s.run := rfl
@[simp] theorem State.setV_mem (x : Bool) : (s.setV x).mem = s.mem := rfl
@[simp] theorem State.setV_trace (x : Bool) : (s.setV x).trace = s.trace := rfl

@[simp] theorem State.setC_pc (x : Bool) : (s.setC x).pc = s.pc := rfl
@[simp] theorem State.setC_ac (x : Bool) : (s.setC x).ac = s.ac := rfl
@[simp] theorem State.setC_n (x : Bool) : (s.setC x).n = s.n := rfl
@[simp] theorem State.setC_z (x : Bool) : (s.setC x).z = s.z := rfl
@[simp] theorem State.setC_v (x : Bool) : (s.setC x).v = s.v := rfl
@[simp] theorem State.setC_c (x : Bool) : (s.setC x).c = x := rfl
@[simp] theorem State.setC_b (x : Bool) : (s.setC x).b = s.b := rfl
@[simp] theorem State.setC_run (x : Bool) : (s.setC x).run = s.run := rfl
@[simp] theorem State.setC_mem (x : Bool) : (s.setC x).mem = s.mem := rfl
@[simp] theorem State.setC_trace (x : Bool) : (s.setC x).trace = s.trace := rfl

@[simp] theorem State.setB_pc (x : Bool) : (s.setB x).pc = s.pc := rfl
@[simp] theorem State.setB_ac (x : Bool) : (s.setB x).ac = s.ac := rfl
@[simp] theorem State.setB_n (x : Bool) : (s.setB x).n = s.n := rfl
@[simp] theorem State.setB_z (x : Bool) : (s.setB x).z = s.z := rfl
@[simp] theorem State.setB_v (x : Bool) : (s.setB x).v = s.v := rfl
@[simp] theorem State.setB_c (x : Bool) : (s.setB x).c = s.c := rfl
@[simp] theorem State.setB_b (x : Bool) : (s.setB x).b = x := rfl
@[simp] theorem State.setB_run (x : Bool) : (s.setB x).run = s.run := rfl
@[simp] theorem State.setB_mem (x : Bool) : (s.setB x).mem = s.mem := rfl
@[simp] theorem State.setB_trace (x : Bool) : (s.setB x).trace = s.trace := rfl

@[simp] theorem State.setNZ_pc (nf zf : Bool) : (s.setNZ nf zf).pc = s.pc := rfl
@[simp] theorem State.setNZ_ac (nf zf : Bool) : (s.setNZ nf zf).ac = s.ac := rfl
@[simp] theorem State.setNZ_n (nf zf : Bool) : (s.setNZ nf zf).n = nf := rfl
@[simp] theorem State.setNZ_z (nf zf : Bool) : (s.setNZ nf zf).z = zf := rfl
@[simp] theorem State.setNZ_v (nf zf : Bool) : (s.setNZ nf zf).v = s.v := rfl
@[simp] theorem State.setNZ_c (nf zf : Bool) : (s.setNZ nf zf).c = s.c := rfl
@[simp] theorem State.setNZ_b (nf zf : Bool) : (s.setNZ nf zf).b = s.b := rfl
@[simp] theorem State.setNZ_run (nf zf : Bool) : (s.setNZ nf zf).run = s.run := rfl
@[simp] theorem State.setNZ_mem (nf zf : Bool) : (s.setNZ nf zf).mem = s.mem := rfl
@[simp] theorem State.setNZ_trace (nf zf : Bool) : (s.setNZ nf zf).trace = s.trace := rfl

@[simp] theorem State.store_pc (a x : Byte) : (s.store a x).pc = s.pc := rfl
@[simp] theorem State.store_ac (a x : Byte) : (s.store a x).ac = s.ac := rfl
@[simp] theorem State.store_n (a x : Byte) : (s.store a x).n = s.n := rfl
@[simp] theorem State.store_z (a x : Byte) : (s.store a x).z = s.z := rfl
@[simp] theorem State.store_v (a x : Byte) : (s.store a x).v = s.v := rfl
@[simp] theorem State.store_c (a x : Byte) : (s.store a x).c = s.c := rfl
@[simp] theorem State.store_b (a x : Byte) : (s.store a x).b = s.b := rfl
@[simp] theorem State.store_run (a x : Byte) : (s.store a x).run = s.run := rfl
@[simp] theorem State.store_mem (a x : Byte) : (s.store a x).mem = s.mem.write a.toNat x := rfl
@[simp] theorem State.store_trace (a x : Byte) : (s.store a x).trace = s.trace := rfl

@[simp] theorem State.emit_pc (e : Event) : (s.emit e).pc = s.pc := rfl
@[simp] theorem State.emit_ac (e : Event) : (s.emit e).ac = s.ac := rfl
@[simp] theorem State.emit_n (e : Event) : (s.emit e).n = s.n := rfl
@[simp] theorem State.emit_z (e : Event) : (s.emit e).z = s.z := rfl
@[simp] theorem State.emit_v (e : Event) : (s.emit e).v = s.v := rfl
@[simp] theorem State.emit_c (e : Event) : (s.emit e).c = s.c := rfl
@[simp] theorem State.emit_b (e : Event) : (s.emit e).b = s.b := rfl
@[simp] theorem State.emit_run (e : Event) : (s.emit e).run = s.run := rfl
@[simp] theorem State.emit_mem (e : Event) : (s.emit e).mem = s.mem := rfl
@[simp] theorem State.emit_trace (e : Event) : (s.emit e).trace = s.trace ++ [e] := rfl

@[simp] theorem State.goTo_pc (p : PcWord) : (s.goTo p).pc = p := rfl
@[simp] theorem State.goTo_ac (p : PcWord) : (s.goTo p).ac = s.ac := rfl
@[simp] theorem State.goTo_n (p : PcWord) : (s.goTo p).n = s.n := rfl
@[simp] theorem State.goTo_z (p : PcWord) : (s.goTo p).z = s.z := rfl
@[simp] theorem State.goTo_v (p : PcWord) : (s.goTo p).v = s.v := rfl
@[simp] theorem State.goTo_c (p : PcWord) : (s.goTo p).c = s.c := rfl
@[simp] theorem State.goTo_b (p : PcWord) : (s.goTo p).b = s.b := rfl
@[simp] theorem State.goTo_run (p : PcWord) : (s.goTo p).run = runAfter s.run p := rfl
@[simp] theorem State.goTo_mem (p : PcWord) : (s.goTo p).mem = s.mem := rfl
@[simp] theorem State.goTo_trace (p : PcWord) : (s.goTo p).trace = s.trace := rfl

@[simp] theorem State.halt_pc : (s.halt).pc = s.pcPlus 1 := rfl
@[simp] theorem State.halt_ac : (s.halt).ac = s.ac := rfl
@[simp] theorem State.halt_n : (s.halt).n = s.n := rfl
@[simp] theorem State.halt_z : (s.halt).z = s.z := rfl
@[simp] theorem State.halt_v : (s.halt).v = s.v := rfl
@[simp] theorem State.halt_c : (s.halt).c = s.c := rfl
@[simp] theorem State.halt_b : (s.halt).b = s.b := rfl
@[simp] theorem State.halt_run : (s.halt).run = .halted := rfl
@[simp] theorem State.halt_mem : (s.halt).mem = s.mem := rfl
@[simp] theorem State.halt_trace : (s.halt).trace = s.trace := rfl

@[simp] theorem State.enterOpFault_pc : (s.enterOpFault).pc = s.pc := rfl
@[simp] theorem State.enterOpFault_ac : (s.enterOpFault).ac = s.ac := rfl
@[simp] theorem State.enterOpFault_n : (s.enterOpFault).n = s.n := rfl
@[simp] theorem State.enterOpFault_z : (s.enterOpFault).z = s.z := rfl
@[simp] theorem State.enterOpFault_v : (s.enterOpFault).v = s.v := rfl
@[simp] theorem State.enterOpFault_c : (s.enterOpFault).c = s.c := rfl
@[simp] theorem State.enterOpFault_b : (s.enterOpFault).b = s.b := rfl
@[simp] theorem State.enterOpFault_run : (s.enterOpFault).run = .opfault := rfl
@[simp] theorem State.enterOpFault_mem : (s.enterOpFault).mem = s.mem := rfl
@[simp] theorem State.enterOpFault_trace : (s.enterOpFault).trace = s.trace := rfl

@[simp] theorem State.setNZOf_pc (r : Byte) : (s.setNZOf r).pc = s.pc := rfl
@[simp] theorem State.setNZOf_ac (r : Byte) : (s.setNZOf r).ac = s.ac := rfl
@[simp] theorem State.setNZOf_n (r : Byte) : (s.setNZOf r).n = bit7 r := rfl
@[simp] theorem State.setNZOf_z (r : Byte) : (s.setNZOf r).z = isZero r := rfl
@[simp] theorem State.setNZOf_v (r : Byte) : (s.setNZOf r).v = s.v := rfl
@[simp] theorem State.setNZOf_c (r : Byte) : (s.setNZOf r).c = s.c := rfl
@[simp] theorem State.setNZOf_b (r : Byte) : (s.setNZOf r).b = s.b := rfl
@[simp] theorem State.setNZOf_run (r : Byte) : (s.setNZOf r).run = s.run := rfl
@[simp] theorem State.setNZOf_mem (r : Byte) : (s.setNZOf r).mem = s.mem := rfl
@[simp] theorem State.setNZOf_trace (r : Byte) : (s.setNZOf r).trace = s.trace := rfl

@[simp] theorem State.setAcNZ_pc (r : Byte) : (s.setAcNZ r).pc = s.pc := rfl
@[simp] theorem State.setAcNZ_ac (r : Byte) : (s.setAcNZ r).ac = r := rfl
@[simp] theorem State.setAcNZ_n (r : Byte) : (s.setAcNZ r).n = bit7 r := rfl
@[simp] theorem State.setAcNZ_z (r : Byte) : (s.setAcNZ r).z = isZero r := rfl
@[simp] theorem State.setAcNZ_v (r : Byte) : (s.setAcNZ r).v = s.v := rfl
@[simp] theorem State.setAcNZ_c (r : Byte) : (s.setAcNZ r).c = s.c := rfl
@[simp] theorem State.setAcNZ_b (r : Byte) : (s.setAcNZ r).b = s.b := rfl
@[simp] theorem State.setAcNZ_run (r : Byte) : (s.setAcNZ r).run = s.run := rfl
@[simp] theorem State.setAcNZ_mem (r : Byte) : (s.setAcNZ r).mem = s.mem := rfl
@[simp] theorem State.setAcNZ_trace (r : Byte) : (s.setAcNZ r).trace = s.trace := rfl

@[simp] theorem State.finishOneByte_pc : (s.finishOneByte).pc = s.pcPlus 1 := rfl
@[simp] theorem State.finishOneByte_ac : (s.finishOneByte).ac = s.ac := rfl
@[simp] theorem State.finishOneByte_n : (s.finishOneByte).n = s.n := rfl
@[simp] theorem State.finishOneByte_z : (s.finishOneByte).z = s.z := rfl
@[simp] theorem State.finishOneByte_v : (s.finishOneByte).v = s.v := rfl
@[simp] theorem State.finishOneByte_c : (s.finishOneByte).c = s.c := rfl
@[simp] theorem State.finishOneByte_b : (s.finishOneByte).b = s.b := rfl
@[simp] theorem State.finishOneByte_run : (s.finishOneByte).run = runAfter s.run (s.pcPlus 1) := rfl
@[simp] theorem State.finishOneByte_mem : (s.finishOneByte).mem = s.mem := rfl
@[simp] theorem State.finishOneByte_trace : (s.finishOneByte).trace = s.trace := rfl

@[simp] theorem State.finishTwoByte_pc : (s.finishTwoByte).pc = s.pcPlus 2 := rfl
@[simp] theorem State.finishTwoByte_ac : (s.finishTwoByte).ac = s.ac := rfl
@[simp] theorem State.finishTwoByte_n : (s.finishTwoByte).n = s.n := rfl
@[simp] theorem State.finishTwoByte_z : (s.finishTwoByte).z = s.z := rfl
@[simp] theorem State.finishTwoByte_v : (s.finishTwoByte).v = s.v := rfl
@[simp] theorem State.finishTwoByte_c : (s.finishTwoByte).c = s.c := rfl
@[simp] theorem State.finishTwoByte_b : (s.finishTwoByte).b = s.b := rfl
@[simp] theorem State.finishTwoByte_run : (s.finishTwoByte).run = runAfter s.run (s.pcPlus 2) := rfl
@[simp] theorem State.finishTwoByte_mem : (s.finishTwoByte).mem = s.mem := rfl
@[simp] theorem State.finishTwoByte_trace : (s.finishTwoByte).trace = s.trace := rfl

@[simp] theorem State.recordStep_pc : (s.recordStep).pc = s.pc := rfl
@[simp] theorem State.recordStep_ac : (s.recordStep).ac = s.ac := rfl
@[simp] theorem State.recordStep_n : (s.recordStep).n = s.n := rfl
@[simp] theorem State.recordStep_z : (s.recordStep).z = s.z := rfl
@[simp] theorem State.recordStep_v : (s.recordStep).v = s.v := rfl
@[simp] theorem State.recordStep_c : (s.recordStep).c = s.c := rfl
@[simp] theorem State.recordStep_b : (s.recordStep).b = s.b := rfl
@[simp] theorem State.recordStep_run : (s.recordStep).run = s.run := rfl
@[simp] theorem State.recordStep_mem : (s.recordStep).mem = s.mem := rfl
@[simp] theorem State.recordStep_trace : (s.recordStep).trace = s.trace ++ [.step s.pc s.opcode (classify s.opcode)] := rfl

@[simp] theorem State.withFetchWord_pc (nbits w : Nat) : (s.withFetchWord nbits w).pc = s.pc := rfl
@[simp] theorem State.withFetchWord_ac (nbits w : Nat) : (s.withFetchWord nbits w).ac = s.ac := rfl
@[simp] theorem State.withFetchWord_n (nbits w : Nat) : (s.withFetchWord nbits w).n = s.n := rfl
@[simp] theorem State.withFetchWord_z (nbits w : Nat) : (s.withFetchWord nbits w).z = s.z := rfl
@[simp] theorem State.withFetchWord_v (nbits w : Nat) : (s.withFetchWord nbits w).v = s.v := rfl
@[simp] theorem State.withFetchWord_c (nbits w : Nat) : (s.withFetchWord nbits w).c = s.c := rfl
@[simp] theorem State.withFetchWord_b (nbits w : Nat) : (s.withFetchWord nbits w).b = s.b := rfl
@[simp] theorem State.withFetchWord_run (nbits w : Nat) : (s.withFetchWord nbits w).run = s.run := rfl
@[simp] theorem State.withFetchWord_mem (nbits w : Nat) : (s.withFetchWord nbits w).mem = s.mem.place s.pc.toNat (tableBytes nbits w) := rfl
@[simp] theorem State.withFetchWord_trace (nbits w : Nat) : (s.withFetchWord nbits w).trace = s.trace := rfl

@[simp] theorem State.setRotated_pc (setsNZ : Bool) (r : Byte) (carry : Bool) : (s.setRotated setsNZ r carry).pc = s.pc := by
  cases setsNZ <;> rfl
@[simp] theorem State.setRotated_ac (setsNZ : Bool) (r : Byte) (carry : Bool) : (s.setRotated setsNZ r carry).ac = r := by
  cases setsNZ <;> rfl
@[simp] theorem State.setRotated_n (setsNZ : Bool) (r : Byte) (carry : Bool) : (s.setRotated setsNZ r carry).n = if setsNZ then bit7 r else s.n := by
  cases setsNZ <;> rfl
@[simp] theorem State.setRotated_z (setsNZ : Bool) (r : Byte) (carry : Bool) : (s.setRotated setsNZ r carry).z = if setsNZ then isZero r else s.z := by
  cases setsNZ <;> rfl
@[simp] theorem State.setRotated_v (setsNZ : Bool) (r : Byte) (carry : Bool) : (s.setRotated setsNZ r carry).v = s.v := by
  cases setsNZ <;> rfl
@[simp] theorem State.setRotated_c (setsNZ : Bool) (r : Byte) (carry : Bool) : (s.setRotated setsNZ r carry).c = carry := by
  cases setsNZ <;> rfl
@[simp] theorem State.setRotated_b (setsNZ : Bool) (r : Byte) (carry : Bool) : (s.setRotated setsNZ r carry).b = s.b := by
  cases setsNZ <;> rfl
@[simp] theorem State.setRotated_run (setsNZ : Bool) (r : Byte) (carry : Bool) : (s.setRotated setsNZ r carry).run = s.run := by
  cases setsNZ <;> rfl
@[simp] theorem State.setRotated_mem (setsNZ : Bool) (r : Byte) (carry : Bool) : (s.setRotated setsNZ r carry).mem = s.mem := by
  cases setsNZ <;> rfl
@[simp] theorem State.setRotated_trace (setsNZ : Bool) (r : Byte) (carry : Bool) : (s.setRotated setsNZ r carry).trace = s.trace := by
  cases setsNZ <;> rfl

/-! The advance of the PC sees only the PC. -/

@[simp] theorem State.setAc_pcPlus (r : Byte) (k : Nat) : (s.setAc r).pcPlus k = s.pcPlus k := rfl
@[simp] theorem State.setV_pcPlus (x : Bool) (k : Nat) : (s.setV x).pcPlus k = s.pcPlus k := rfl
@[simp] theorem State.setC_pcPlus (x : Bool) (k : Nat) : (s.setC x).pcPlus k = s.pcPlus k := rfl
@[simp] theorem State.setB_pcPlus (x : Bool) (k : Nat) : (s.setB x).pcPlus k = s.pcPlus k := rfl
@[simp] theorem State.setNZ_pcPlus (nf zf : Bool) (k : Nat) : (s.setNZ nf zf).pcPlus k = s.pcPlus k := rfl
@[simp] theorem State.store_pcPlus (a x : Byte) (k : Nat) : (s.store a x).pcPlus k = s.pcPlus k := rfl
@[simp] theorem State.emit_pcPlus (e : Event) (k : Nat) : (s.emit e).pcPlus k = s.pcPlus k := rfl
@[simp] theorem State.enterOpFault_pcPlus (k : Nat) : (s.enterOpFault).pcPlus k = s.pcPlus k := rfl
@[simp] theorem State.setNZOf_pcPlus (r : Byte) (k : Nat) : (s.setNZOf r).pcPlus k = s.pcPlus k := rfl
@[simp] theorem State.setAcNZ_pcPlus (r : Byte) (k : Nat) : (s.setAcNZ r).pcPlus k = s.pcPlus k := rfl
@[simp] theorem State.recordStep_pcPlus (k : Nat) : (s.recordStep).pcPlus k = s.pcPlus k := rfl
@[simp] theorem State.setRotated_pcPlus (setsNZ : Bool) (r : Byte) (carry : Bool) (k : Nat) :
    (s.setRotated setsNZ r carry).pcPlus k = s.pcPlus k := by
  cases setsNZ <;> rfl

/-- Two states with equal fields are equal. -/
theorem State.eq_of_fields {s t : State} (h0 : s.pc = t.pc) (h1 : s.ac = t.ac) (h2 : s.n = t.n) (h3 : s.z = t.z) (h4 : s.v = t.v)
    (h5 : s.c = t.c) (h6 : s.b = t.b) (h7 : s.run = t.run) (h8 : s.mem = t.mem) (h9 : s.trace = t.trace) : s = t := by
  cases s; cases t; simp_all

end Sys2Proof.Machine
end

