-- ==== Sys2Proof/Laws/Ops.lean ====
section
/-! SUPPORT. What each shared operation can do, said once. -/

namespace Sys2Proof.Machine

/-! ### Memory -/

@[simp] theorem Memory.read_nil (a : Nat) : Memory.read [] a = unlistedByte := rfl

@[simp] theorem Memory.read_cons (k : Nat) (x : Byte) (m : Memory) (a : Nat) :
    Memory.read ((k, x) :: m) a = if k = a then x else Memory.read m a := rfl

theorem Memory.wfFrom_cons {lo k : Nat} {x : Byte} {m : Memory} :
    Memory.wfFrom lo ((k, x) :: m) = true ↔
      lo ≤ k ∧ k < 256 ∧ x ≠ unlistedByte ∧ Memory.wfFrom (k + 1) m = true := by
  simp [Memory.wfFrom, and_assoc]

theorem Memory.wfFrom_mono {m : Memory} {lo lo' : Nat} (h : lo' ≤ lo) (hm : m.wfFrom lo = true) :
    m.wfFrom lo' = true := by
  cases m with
  | nil => rfl
  | cons cell m =>
    obtain ⟨k, x⟩ := cell
    rw [Memory.wfFrom_cons] at hm ⊢
    exact ⟨by omega, hm.2⟩

/-- Below the first address of a canonical memory nothing is listed. -/
theorem Memory.read_below {m : Memory} {lo a : Nat} (hm : m.wfFrom lo = true) (h : a < lo) :
    m.read a = unlistedByte := by
  induction m generalizing lo with
  | nil => rfl
  | cons cell m ih =>
    obtain ⟨k, x⟩ := cell
    rw [Memory.wfFrom_cons] at hm
    rw [Memory.read_cons, if_neg (by omega), ih hm.2.2.2 (by omega)]

theorem Memory.write_wfFrom {m : Memory} {lo a : Nat} {x : Byte} (hm : m.wfFrom lo = true) (hlo : lo ≤ a)
    (ha : a < 256) : (m.write a x).wfFrom lo = true := by
  induction m generalizing lo with
  | nil => by_cases hx : x = unlistedByte <;> simp [Memory.write, Memory.wfFrom, hx, hlo, ha]
  | cons cell m ih =>
    obtain ⟨k, y⟩ := cell
    have hc := Memory.wfFrom_cons.mp hm
    unfold Memory.write
    split
    next hlt =>
      split
      next => exact hm
      next hx => exact Memory.wfFrom_cons.mpr ⟨hlo, ha, hx, Memory.wfFrom_cons.mpr ⟨by omega, hc.2⟩⟩
    next =>
      split
      next heq =>
        split
        next => exact Memory.wfFrom_mono (by omega) hc.2.2.2
        next hx => exact Memory.wfFrom_cons.mpr ⟨hlo, ha, hx, by rw [heq]; exact hc.2.2.2⟩
      next => exact Memory.wfFrom_cons.mpr ⟨hc.1, hc.2.1, hc.2.2.1, ih hc.2.2.2 (by omega)⟩

/-- A write keeps the canonical form. -/
theorem Memory.write_wf {m : Memory} {a : Nat} {x : Byte} (hm : m.wf = true) (ha : a < 256) :
    (m.write a x).wf = true :=
  Memory.write_wfFrom hm (Nat.zero_le a) ha

theorem Memory.read_write_from {m : Memory} {lo : Nat} (hm : m.wfFrom lo = true) (a : Nat) (x : Byte) (k : Nat) :
    (m.write a x).read k = if k = a then x else m.read k := by
  induction m generalizing lo with
  | nil =>
    by_cases hx : x = unlistedByte <;> by_cases hk : k = a <;> simp [Memory.write, hx, hk]
    intro h; exact absurd h.symm hk
  | cons cell m ih =>
    obtain ⟨j, y⟩ := cell
    have hc := Memory.wfFrom_cons.mp hm
    unfold Memory.write
    split
    next hlt =>
      split
      next hx =>
        split
        next hk =>
          subst hk
          rw [Memory.read_cons, if_neg (by omega), Memory.read_below hc.2.2.2 (by omega), hx]
        next => rfl
      next =>
        rw [Memory.read_cons]
        by_cases hk : k = a
        · rw [if_pos hk.symm, if_pos hk]
        · rw [if_neg (Ne.symm hk), if_neg hk]
    next =>
      split
      next heq =>
        subst heq
        split
        next hx =>
          by_cases hk : k = a
          · rw [if_pos hk, hk, hx]; exact Memory.read_below hc.2.2.2 (by omega)
          · rw [if_neg hk, Memory.read_cons, if_neg (Ne.symm hk)]
        next =>
          by_cases hk : k = a
          · rw [if_pos hk, Memory.read_cons, if_pos hk.symm]
          · rw [if_neg hk, Memory.read_cons, if_neg (Ne.symm hk), Memory.read_cons, if_neg (Ne.symm hk)]
      next hne =>
        rw [Memory.read_cons, Memory.read_cons, ih hc.2.2.2]
        by_cases hk : k = a
        · subst hk; rw [if_neg (Ne.symm hne), if_pos rfl, if_pos rfl]
        · rw [if_neg hk, if_neg hk]

/-- What a write does to every read: the written address answers the byte, every other is left alone. -/
theorem Memory.read_write {m : Memory} (hm : m.wf = true) (a : Nat) (x : Byte) (k : Nat) :
    (m.write a x).read k = if k = a then x else m.read k :=
  Memory.read_write_from hm a x k

theorem Memory.ofBytes_wfFrom (xs : List Byte) (k : Nat) (h : k + xs.length ≤ 256) :
    (Memory.ofBytes k xs).wfFrom k = true := by
  induction xs generalizing k with
  | nil => rfl
  | cons x xs ih =>
    have hlen : k + 1 + xs.length ≤ 256 := by simp at h; omega
    unfold Memory.ofBytes
    split
    next => exact Memory.wfFrom_mono (by omega) (ih (k + 1) hlen)
    next hx => exact Memory.wfFrom_cons.mpr ⟨le_refl k, by simp at h; omega, hx, ih (k + 1) hlen⟩

/-- The memory of an image is in canonical form. -/
theorem Memory.ofImage_wf (image : Vector Byte 256) : (Memory.ofImage image).wf = true :=
  Memory.ofBytes_wfFrom image.toList 0 (by simp)

/-- Placing bytes keeps the canonical form. -/
theorem Memory.place_wf {m : Memory} (hm : m.wf = true) (k : Nat) (xs : List Byte) : (m.place k xs).wf = true := by
  induction xs generalizing m k with
  | nil => exact hm
  | cons x xs ih =>
    unfold Memory.place
    split
    next hk => exact ih (Memory.write_wf hm hk) (k + 1)
    next => exact hm

/-- A canonical memory is fixed by what its addresses from `lo` on read as. -/
theorem Memory.eq_of_reads {m m' : Memory} {lo : Nat} (hm : m.wfFrom lo = true) (hm' : m'.wfFrom lo = true)
    (h : ∀ a, m.read a = m'.read a) : m = m' := by
  induction m generalizing lo m' with
  | nil =>
    cases m' with
    | nil => rfl
    | cons cell m' =>
      obtain ⟨k, x⟩ := cell
      have hk := h k
      rw [Memory.read_nil, Memory.read_cons, if_pos rfl] at hk
      exact absurd hk.symm (Memory.wfFrom_cons.mp hm').2.2.1
  | cons cell m ih =>
    obtain ⟨k, x⟩ := cell
    have hc := Memory.wfFrom_cons.mp hm
    cases m' with
    | nil =>
      have hk := h k
      rw [Memory.read_nil, Memory.read_cons, if_pos rfl] at hk
      exact absurd hk hc.2.2.1
    | cons cell' m' =>
      obtain ⟨k', x'⟩ := cell'
      have hc' := Memory.wfFrom_cons.mp hm'
      have hkk : k = k' := by
        rcases Nat.lt_trichotomy k k' with hlt | heq | hgt
        · have hk := h k
          rw [Memory.read_cons, if_pos rfl, Memory.read_cons, if_neg (by omega),
            Memory.read_below hc'.2.2.2 (by omega)] at hk
          exact absurd hk hc.2.2.1
        · exact heq
        · have hk := h k'
          rw [Memory.read_cons, if_neg (by omega), Memory.read_cons, if_pos rfl,
            Memory.read_below hc.2.2.2 (by omega)] at hk
          exact absurd hk.symm hc'.2.2.1
      subst hkk
      have hxx : x = x' := by simpa using h k
      subst hxx
      have hrest : m = m' := ih hc.2.2.2 hc'.2.2.2 fun a => by
        by_cases ha : k = a
        · subst ha
          rw [Memory.read_below hc.2.2.2 (by omega), Memory.read_below hc'.2.2.2 (by omega)]
        · simpa [ha] using h a
      rw [hrest]

/-- A cell of the dump is what its address reads as. -/
theorem Memory.dump_get (m : Memory) (k : Nat) (hk : k < 256) : m.dump[k] = m.read k := by
  simp [Memory.dump]

/-! ### The PC -/

theorem State.pcPlus_toNat (s : State) (k : Nat) (h : s.pc.toNat + k < 512) :
    (s.pcPlus k).toNat = s.pc.toNat + k := by
  simp [State.pcPlus, Nat.mod_eq_of_lt h]

theorem State.pcPlus_eq (s : State) (k : Nat) : s.pcPlus k = s.pc + BitVec.ofNat 9 k := by
  apply BitVec.eq_of_toNat_eq
  simp [State.pcPlus]

theorem jumpTarget_toNat (a : Byte) : (jumpTarget a).toNat = a.toNat := by
  have := a.isLt
  simp [jumpTarget]
  omega

theorem runAfter_of_ne {r : RunState} {next : PcWord} (h : next.toNat ≠ 256) : runAfter r next = r := by
  simp [runAfter, h]

theorem runAfter_of_eq {r : RunState} {next : PcWord} (h : next.toNat = 256) : runAfter r next = .offend := by
  simp [runAfter, h]

/-- A jump target is never 256 (R106, R170). -/
@[simp] theorem runAfter_jumpTarget (r : RunState) (a : Byte) : runAfter r (jumpTarget a) = r := by
  have := a.isLt
  exact runAfter_of_ne (by rw [jumpTarget_toNat]; omega)

/-! ### Bits and results, as numbers -/

theorem bit7_eq (r : Byte) : bit7 r = decide (128 ≤ r.toNat) := by
  revert r; decide

theorem bit0_eq (r : Byte) : bit0 r = decide (r.toNat % 2 = 1) := by
  revert r; decide

theorem isZero_eq (r : Byte) : isZero r = decide (r.toNat = 0) := by
  revert r; decide

theorem addResult_toNat (x y : Byte) : (addResult x y).toNat = (x.toNat + y.toNat) % 256 := by
  simp [addResult, addSum]

theorem subResult_toNat (x y : Byte) : (subResult x y).toNat = (x.toNat + 256 - y.toNat) % 256 := by
  have hx := x.isLt
  have hy := y.isLt
  simp [subResult, subDiff]
  omega

theorem shrResult_toNat (x : Byte) : (shrResult x).toNat = x.toNat / 2 := by
  revert x; decide

theorem shlResult_toNat (x : Byte) : (shlResult x).toNat = 2 * x.toNat % 256 := by
  revert x; decide

theorem rorResult_toNat (c0 : Bool) (x : Byte) : (rorResult c0 x).toNat = x.toNat / 2 + 128 * c0.toNat := by
  revert c0 x; decide

theorem rolResult_toNat (c0 : Bool) (x : Byte) : (rolResult c0 x).toNat = 2 * x.toNat % 256 + c0.toNat := by
  revert c0 x; decide

/-! ### The forms of an instruction -/

@[simp] theorem oneByteForm_eq (effect : State) : oneByteForm effect = .next effect.finishOneByte := rfl

theorem twoByteForm_fits {s after : State} (h : s.pc.toNat < 255) : twoByteForm s after = .next after := by
  simp [twoByteForm, h]

theorem twoByteForm_off_end {s after : State} (h : ¬ s.pc.toNat < 255) :
    twoByteForm s after = .next s.enterOpFault := by
  simp [twoByteForm, h]

/-- All that a two-byte form can do: its effect, or OPFAULT with nothing else changed. -/
theorem twoByteForm_cases {s after t : State} (h : twoByteForm s after = .next t) :
    (s.pc.toNat < 255 ∧ t = after) ∨ (¬ s.pc.toNat < 255 ∧ t = s.enterOpFault) := by
  by_cases hp : s.pc.toNat < 255
  · exact .inl ⟨hp, by rw [twoByteForm_fits hp] at h; cases h; rfl⟩
  · exact .inr ⟨hp, by rw [twoByteForm_off_end hp] at h; cases h; rfl⟩

/-- All that a jump can do. -/
theorem jumpIf_cases {cond : Bool} {a : Byte} {s t : State} (h : jumpIf cond a s = .next t) :
    (s.pc.toNat < 255 ∧ cond = true ∧ t = s.goTo (jumpTarget a)) ∨
      (s.pc.toNat < 255 ∧ cond = false ∧ t = s.finishTwoByte) ∨
      (¬ s.pc.toNat < 255 ∧ t = s.enterOpFault) := by
  rcases twoByteForm_cases h with ⟨hp, ht⟩ | ⟨hp, ht⟩
  · cases cond
    · exact .inr (.inl ⟨hp, rfl, ht⟩)
    · exact .inl ⟨hp, rfl, ht⟩
  · exact .inr (.inr ⟨hp, ht⟩)

/-! ### One step -/

theorem State.fetch_ok {s : State} {i : Instr} {rest : List Byte} (h : decode s.fetchBytes = .ok (i, rest)) :
    s.fetch = .ok i := by
  simp [State.fetch, h]

theorem State.fetch_error {s : State} {e : DecodeError} (h : decode s.fetchBytes = .error e) :
    s.fetch = .error e := by
  simp [State.fetch, h]

theorem step_terminal {s : State} (h : s.run ≠ .run) : step s = .next s := by
  unfold step stepTerminal
  cases hr : s.run <;> simp_all

/-- All that a step can do if it answers a next state. -/
theorem step_cases {s t : State} (h : step s = .next t) :
    (s.run ≠ .run ∧ t = s) ∨
      (s.run = .run ∧ ∃ i, s.fetch = .ok i ∧ exec i s.recordStep = .next t) ∨
      (s.run = .run ∧ ∃ cls, s.fetch = .error (.missingOperand cls) ∧ t = s.recordStep.enterOpFault) := by
  by_cases hr : s.run = .run
  · unfold step at h
    rw [hr] at h
    cases hf : s.fetch with
    | ok i => exact .inr (.inl ⟨hr, i, rfl, by simpa [hf] using h⟩)
    | error e =>
      cases e with
      | noOpcode => simp [hf, stepUnfetched] at h
      | missingOperand cls =>
        refine .inr (.inr ⟨hr, cls, rfl, ?_⟩)
        simp only [hf, stepUnfetched] at h
        cases h
        rfl
  · rw [step_terminal hr] at h
    cases h
    exact .inl ⟨hr, rfl⟩

end Sys2Proof.Machine
end

