-- ==== Sys2Proof/Laws/PerInstr.lean ====
section
/-! SUPPORT. Statements for all instructions, one lemma per constructor. -/

namespace Sys2Proof.Laws

/-- The canonical encoding has the length of the instruction's class (30_encoding.md R71). -/
def EncodeLength.Statement (i : Instr) : Prop := (encode i).length = i.cls.length

theorem EncodeLength.nop : EncodeLength.Statement .nop := rfl
theorem EncodeLength.sta (a : Byte) : EncodeLength.Statement (.sta a) := rfl
theorem EncodeLength.lda (a : Byte) : EncodeLength.Statement (.lda a) := rfl
theorem EncodeLength.add (a : Byte) : EncodeLength.Statement (.add a) := rfl
theorem EncodeLength.or (a : Byte) : EncodeLength.Statement (.or a) := rfl
theorem EncodeLength.and (a : Byte) : EncodeLength.Statement (.and a) := rfl
theorem EncodeLength.not : EncodeLength.Statement .not := rfl
theorem EncodeLength.sub (a : Byte) : EncodeLength.Statement (.sub a) := rfl
theorem EncodeLength.jmp (a : Byte) : EncodeLength.Statement (.jmp a) := rfl
theorem EncodeLength.jn (a : Byte) : EncodeLength.Statement (.jn a) := rfl
theorem EncodeLength.jp (a : Byte) : EncodeLength.Statement (.jp a) := rfl
theorem EncodeLength.jv (a : Byte) : EncodeLength.Statement (.jv a) := rfl
theorem EncodeLength.jnv (a : Byte) : EncodeLength.Statement (.jnv a) := rfl
theorem EncodeLength.jz (a : Byte) : EncodeLength.Statement (.jz a) := rfl
theorem EncodeLength.jnz (a : Byte) : EncodeLength.Statement (.jnz a) := rfl
theorem EncodeLength.jc (a : Byte) : EncodeLength.Statement (.jc a) := rfl
theorem EncodeLength.jnc (a : Byte) : EncodeLength.Statement (.jnc a) := rfl
theorem EncodeLength.jb (a : Byte) : EncodeLength.Statement (.jb a) := rfl
theorem EncodeLength.jnb (a : Byte) : EncodeLength.Statement (.jnb a) := rfl
theorem EncodeLength.shr : EncodeLength.Statement .shr := rfl
theorem EncodeLength.shl : EncodeLength.Statement .shl := rfl
theorem EncodeLength.ror : EncodeLength.Statement .ror := rfl
theorem EncodeLength.rol : EncodeLength.Statement .rol := rfl
theorem EncodeLength.hlt : EncodeLength.Statement .hlt := rfl
theorem EncodeLength.unmappedA8 (op : Byte) : EncodeLength.Statement (.unmappedA8 op) := rfl
theorem EncodeLength.unmappedC0 (op : Byte) : EncodeLength.Statement (.unmappedC0 op) := rfl

end Sys2Proof.Laws
end

