-- ==== Sys2Proof/Tests/Slice0.lean ====
section
/-! SUPPORT. Tests of the model's author. Expected values come from 95_test_vectors.md (its section is named in
each comment) or are read off the rules by hand; the witnesses show that no statement's premises are empty. -/

open Sys2Proof Sys2Proof.Machine Sys2Proof.Claims

namespace Sys2Proof.Tests

/-- A running state at `pc` with the cells `m`, everything else as after reset. -/
def at_ (pc : PcWord) (m : Memory) : State := { State.reset with pc := pc, mem := m }

/-- The next state of an outcome, if it is one. -/
def nextOf : Host.Outcome State Fault Refusal → Option State
  | .next t => some t
  | .fault _ => none
  | .refused _ => none

/-- PC, AC and the flags N, Z, V, C, B of an outcome. -/
def regs (o : Host.Outcome State Fault Refusal) : Option (Nat × Nat × List Bool) :=
  (nextOf o).map fun t => (t.pc.toNat, t.ac.toNat, [t.n, t.z, t.v, t.c, t.b])

/-- PC and sequencer state of an outcome. -/
def stop (o : Host.Outcome State Fault Refusal) : Option (Nat × RunState) :=
  (nextOf o).map fun t => (t.pc.toNat, t.run)

/-! ### WellFormed: an ill-formed term for each check -/

theorem test_wf_refuses_below_A8 : (Instr.unmappedA8 0xA7).wellFormed = false := by decide
theorem test_wf_refuses_above_AF : (Instr.unmappedA8 0xB0).wellFormed = false := by decide
theorem test_wf_refuses_below_C0 : (Instr.unmappedC0 0xBF).wellFormed = false := by decide
theorem test_wf_refuses_above_DF : (Instr.unmappedC0 0xE0).wellFormed = false := by decide
theorem test_wf_accepts_row_ends : (Instr.unmappedA8 0xA8).wellFormed = true ∧ (Instr.unmappedA8 0xAF).wellFormed = true ∧
    (Instr.unmappedC0 0xC0).wellFormed = true ∧ (Instr.unmappedC0 0xDF).wellFormed = true := by decide

/-! ### Decoding: one word per constructor, written out from the bit patterns of R74 to R78 -/

theorem test_decode_nop : decode [0b00001111#8, 200] = .ok (.nop, [200]) := rfl
theorem test_decode_sta : decode [0b00010000#8, 200] = .ok (.sta 200, []) := rfl
theorem test_decode_lda : decode [0b00100001#8, 200] = .ok (.lda 200, []) := rfl
theorem test_decode_add : decode [0b00111111#8, 200] = .ok (.add 200, []) := rfl
theorem test_decode_or : decode [0b01000000#8, 200] = .ok (.or 200, []) := rfl
theorem test_decode_and : decode [0b01011111#8, 200] = .ok (.and 200, []) := rfl
theorem test_decode_not : decode [0b01100000#8, 200] = .ok (.not, [200]) := rfl
theorem test_decode_sub : decode [0b01111111#8, 200] = .ok (.sub 200, []) := rfl
theorem test_decode_jmp : decode [0b10001111#8, 200] = .ok (.jmp 200, []) := rfl
theorem test_decode_jn : decode [0b10010011#8, 200] = .ok (.jn 200, []) := rfl
theorem test_decode_jp : decode [0b10010111#8, 200] = .ok (.jp 200, []) := rfl
theorem test_decode_jv : decode [0b10011011#8, 200] = .ok (.jv 200, []) := rfl
theorem test_decode_jnv : decode [0b10011111#8, 200] = .ok (.jnv 200, []) := rfl
theorem test_decode_jz : decode [0b10100011#8, 200] = .ok (.jz 200, []) := rfl
theorem test_decode_jnz : decode [0b10100111#8, 200] = .ok (.jnz 200, []) := rfl
theorem test_decode_jc : decode [0b10110011#8, 200] = .ok (.jc 200, []) := rfl
theorem test_decode_jnc : decode [0b10110111#8, 200] = .ok (.jnc 200, []) := rfl
theorem test_decode_jb : decode [0b10111011#8, 200] = .ok (.jb 200, []) := rfl
theorem test_decode_jnb : decode [0b10111111#8, 200] = .ok (.jnb 200, []) := rfl
theorem test_decode_shr : decode [0b11100011#8, 200] = .ok (.shr, [200]) := rfl
theorem test_decode_shl : decode [0b11100111#8, 200] = .ok (.shl, [200]) := rfl
theorem test_decode_ror : decode [0b11101011#8, 200] = .ok (.ror, [200]) := rfl
theorem test_decode_rol : decode [0b11101111#8, 200] = .ok (.rol, [200]) := rfl
theorem test_decode_hlt : decode [0b11111111#8, 200] = .ok (.hlt, [200]) := rfl
theorem test_decode_unmappedA8 : decode [0b10101111#8, 200] = .ok (.unmappedA8 0xAF, [200]) := rfl
theorem test_decode_unmappedC0 : decode [0b11000000#8, 200] = .ok (.unmappedC0 0xC0, [200]) := rfl

/-- 95 section 2.7, decoder spot checks. -/
theorem test_classify_spot_checks :
    [0, 16, 47, 63, 64, 95, 96, 127, 143, 147, 151, 155, 159, 163, 167, 168, 175, 179, 183, 187, 191, 192, 223, 227, 231,
      235, 239, 240, 255].map (fun k => classify (BitVec.ofNat 8 k)) =
    [.nop, .sta, .lda, .add, .or, .and, .not, .sub, .jmp, .jn, .jp, .jv, .jnv, .jz, .jnz, .unmapped, .unmapped, .jc, .jnc,
      .jb, .jnb, .unmapped, .unmapped, .shr, .shl, .ror, .rol, .hlt, .hlt] := by decide

theorem test_table_word_short : decodeTableWord 8 0x20 = some (.lda 0) := by decide
theorem test_table_word_operand : decodeTableWord 16 0x0A20 = some (.lda 10) := by decide
theorem test_fetch_word_runs :
    regs (step (State.reset.withFetchWord 8 0xF5)) = some (1, 0, [false, false, false, false, false]) := by decide

/-! ### One step each, from the vectors of 95 section 2 -/

/-- An instruction at PC 10 with operand 200 and Mem[200] = m (section 2's convention). -/
def at10 (op ac m : Byte) (fl : List Bool) : State :=
  { at_ 10 (Memory.write [(10, op), (11, 200)] 200 m) with
    ac := ac, n := fl.getD 0 false, z := fl.getD 1 false, v := fl.getD 2 false, c := fl.getD 3 false, b := fl.getD 4 false }

theorem test_add_signed_overflow : regs (step (at10 48 127 1 [false, false, false, false, true])) = some (12, 128, [true, false, true, false, true]) := by decide
theorem test_add_wraps : regs (step (at10 48 128 128 [false, false, false, false, true])) = some (12, 0, [false, true, true, true, true]) := by decide
theorem test_sub_borrows : regs (step (at10 112 3 5 [false, false, false, true, false])) = some (12, 254, [true, false, false, true, true]) := by decide
theorem test_sub_signed_overflow : regs (step (at10 112 0 128 [false, false, false, true, false])) = some (12, 128, [true, false, true, true, true]) := by decide
theorem test_and_zero : regs (step (at10 80 240 15 [false, false, true, true, true])) = some (12, 0, [false, true, true, true, true]) := by decide
theorem test_and_sign : regs (step (at10 80 255 128 [false, false, true, true, true])) = some (12, 128, [true, false, true, true, true]) := by decide
theorem test_or_all : regs (step (at10 64 15 240 [false, false, true, true, true])) = some (12, 255, [true, false, true, true, true]) := by decide
theorem test_or_zero : regs (step (at10 64 0 0 [false, false, true, true, true])) = some (12, 0, [false, true, true, true, true]) := by decide
theorem test_not_zero : regs (step (at10 96 255 0 [false, false, true, true, true])) = some (11, 0, [false, true, true, true, true]) := by decide
theorem test_not_sign : regs (step (at10 96 90 0 [false, false, true, true, true])) = some (11, 165, [true, false, true, true, true]) := by decide
theorem test_lda_zero : regs (step (at10 32 17 0 [false, false, true, true, true])) = some (12, 0, [false, true, true, true, true]) := by decide
theorem test_lda_noncanonical : regs (step (at10 33 0 7 [false, false, false, false, false])) = some (12, 7, [false, false, false, false, false]) := by decide
theorem test_shr_out : regs (step (at10 224 1 0 [false, false, true, false, true])) = some (11, 0, [false, true, true, true, true]) := by decide
theorem test_shr_drops_carry_in : regs (step (at10 224 255 0 [false, false, true, true, true])) = some (11, 127, [false, false, true, true, true]) := by decide
theorem test_shl_out : regs (step (at10 228 128 0 [false, false, true, false, true])) = some (11, 0, [false, true, true, true, true]) := by decide
theorem test_shl_sign : regs (step (at10 228 64 0 [false, false, true, true, true])) = some (11, 128, [true, false, true, false, true]) := by decide
theorem test_ror_keeps_z : regs (step (at10 232 1 0 [false, false, true, false, true])) = some (11, 0, [false, false, true, true, true]) := by decide
theorem test_ror_carry_in : regs (step (at10 232 64 0 [false, false, true, true, true])) = some (11, 160, [false, false, true, false, true]) := by decide
theorem test_rol_keeps_n : regs (step (at10 236 65 0 [false, false, true, false, true])) = some (11, 130, [false, false, true, false, true]) := by decide
theorem test_rol_carry_in : regs (step (at10 236 64 0 [false, false, true, true, true])) = some (11, 129, [false, false, true, false, true]) := by decide

/-- 95 section 2.4: STA 200 and STA over its own operand. -/
theorem test_sta : (nextOf (step (at10 16 0x96 0 [true, true]))).map (fun t => (t.mem.read 200, t.ac, t.n, t.z)) =
    some (0x96, 0x96, true, true) := by decide
theorem test_sta_own_operand :
    (nextOf (step { at_ 10 [(10, 16), (11, 11)] with ac := 0x96 })).map (fun t => (t.mem.read 11, t.pc.toNat)) =
      some (0x96, 12) := by decide
/-- 95 section 2.4: LDA 11 at PC 10 loads its own operand byte. -/
theorem test_lda_own_operand : regs (step (at_ 10 [(10, 32), (11, 11)])) =
    some (12, 11, [false, false, false, false, false]) := by decide

/-! ### Jumps: PC 20, operand 40 (95 section 2.6) -/

/-- A jump at PC 20 to 40 with every flag `f`. -/
def at20 (op : Byte) (f : Bool) : State :=
  { at_ 20 [(20, op), (21, 40)] with n := f, z := f, v := f, c := f, b := f }

/-- The flag the jump tests is `f`, every other flag the opposite. -/
def onlyFlag (k : Nat) (f : Bool) (s : State) : State :=
  { s with n := (k == 0) == f, z := (k == 1) == f, v := (k == 2) == f, c := (k == 3) == f, b := (k == 4) == f }

theorem test_jn : (stop (step (onlyFlag 0 true (at20 144 false))), stop (step (onlyFlag 0 false (at20 144 false)))) =
    (some (40, .run), some (22, .run)) := by decide
theorem test_jp : (stop (step (onlyFlag 0 true (at20 148 false))), stop (step (onlyFlag 0 false (at20 148 false)))) =
    (some (22, .run), some (40, .run)) := by decide
theorem test_jv : (stop (step (onlyFlag 2 true (at20 152 false))), stop (step (onlyFlag 2 false (at20 152 false)))) =
    (some (40, .run), some (22, .run)) := by decide
theorem test_jnv : (stop (step (onlyFlag 2 true (at20 156 false))), stop (step (onlyFlag 2 false (at20 156 false)))) =
    (some (22, .run), some (40, .run)) := by decide
theorem test_jz : (stop (step (onlyFlag 1 true (at20 160 false))), stop (step (onlyFlag 1 false (at20 160 false)))) =
    (some (40, .run), some (22, .run)) := by decide
theorem test_jnz : (stop (step (onlyFlag 1 true (at20 164 false))), stop (step (onlyFlag 1 false (at20 164 false)))) =
    (some (22, .run), some (40, .run)) := by decide
theorem test_jc : (stop (step (onlyFlag 3 true (at20 176 false))), stop (step (onlyFlag 3 false (at20 176 false)))) =
    (some (40, .run), some (22, .run)) := by decide
theorem test_jnc : (stop (step (onlyFlag 3 true (at20 180 false))), stop (step (onlyFlag 3 false (at20 180 false)))) =
    (some (22, .run), some (40, .run)) := by decide
theorem test_jb : (stop (step (onlyFlag 4 true (at20 184 false))), stop (step (onlyFlag 4 false (at20 184 false)))) =
    (some (40, .run), some (22, .run)) := by decide
theorem test_jnb : (stop (step (onlyFlag 4 true (at20 188 false))), stop (step (onlyFlag 4 false (at20 188 false)))) =
    (some (22, .run), some (40, .run)) := by decide
theorem test_jmp : stop (step (at20 128 true)) = some (40, .run) := by decide
theorem test_jmp_itself : stop (step (at_ 20 [(20, 128), (21, 20)])) = some (20, .run) := by decide

/-! ### Sequencer and stops (95 section 2.7) -/

theorem test_nop : step (at_ 7 []) = .next { at_ 8 [] with trace := [.step 7 0 .nop] } := rfl
theorem test_unmapped_logged : (nextOf (step (at_ 4 [(4, 200)]))).map (fun t => (t.pc.toNat, t.trace)) =
    some (5, [.step 4 200 .unmapped, .unmapped 4 200]) := by decide
theorem test_unmapped_takes_no_operand : stop (step (at_ 4 [(4, 168), (5, 40)])) = some (5, .run) := by decide
theorem test_nop_at_255 : stop (step (at_ 255 [])) = some (256, .offend) := by decide
theorem test_not_at_255 : regs (step (at_ 255 [(255, 96)])) = some (256, 255, [true, false, false, false, false]) := by decide
theorem test_lda_at_255 : stop (step (at_ 255 [(255, 32)])) = some (255, .opfault) := by decide
theorem test_jz_at_255 : stop (step (at_ 255 [(255, 160)])) = some (255, .opfault) := by decide
theorem test_jz_not_taken_at_254 : stop (step (at_ 254 [(254, 160)])) = some (256, .offend) := by decide
theorem test_jz_taken_at_254 : stop (step { at_ 254 [(254, 160), (255, 7)] with z := true }) = some (7, .run) := by decide
theorem test_hlt_at_255 : stop (step (at_ 255 [(255, 240)])) = some (256, .halted) := by decide
theorem test_hlt_noncanonical : stop (step (at_ 9 [(9, 255)])) = some (10, .halted) := by decide
theorem test_pc_out_of_range_faults : step (at_ 256 []) = .fault .pcOutOfRange := rfl
theorem test_terminal_stays : step { at_ 3 [] with run := .halted } = .next { at_ 3 [] with run := .halted } := rfl

/-! ### The host side -/

/-- A `Loader` of plain decimal digits, for the tests only. -/
def decimalLoader : Loader where
  parseInt t := if t = [] then none else (readDigits 0 t).map Int.ofNat
  outOfRangeOperand _ := none

/-- S2: the line 5 ADD 6. -/
def lineS2 : List Char := ['5', ' ', 'a', 'D', 'd', ' ', '6']

theorem test_builder_s2 : ((buildLine decimalLoader (Vector.replicate 256 0) lineS2)[5],
    (buildLine decimalLoader (Vector.replicate 256 0) lineS2)[6]) = (48, 6) := by decide +kernel
theorem test_builder_drops_operand :
    (buildLine decimalLoader (Vector.replicate 256 9) ['5', ' ', '9', '6', ' ', '6'])[6] = 9 := by decide +kernel
theorem test_classify_ac : (classifyAc 0x80, classifyAc 0, classifyAc 0x7F) = (.negative, .zero, .positive) := by decide
theorem test_report_of_halt : ((at_ 3 []).report, (State.report { at_ 3 [] with run := .halted }).map (·.outcome)) =
    (none, some .halted) := by decide

/-! ### Witnesses: states and operands that meet a statement's premises, each clause at a boundary -/

theorem witness_reset_image : (State.resetWith (Vector.replicate 256 7)).mem.read 0 = 7 ∧
    (State.resetWith (Vector.replicate 256 7)).mem.read 255 = 7 := by decide +kernel
theorem witness_report : (at_ 3 []).run = .run ∧ ({ at_ 3 [] with run := .halted } : State).run ≠ .run ∧
    ({ at_ 256 [] with run := .offend } : State).run ≠ .run ∧ ({ at_ 255 [(255, 32)] with run := .opfault } : State).run ≠ .run := by decide
theorem witness_image_file : (imageFile (Vector.replicate 256 200))[255]? = some ['2', '0', '0'] := by decide +kernel
theorem witness_builder_line : tokens lineS2 = [['5'], ['a', 'D', 'd'], ['6']] ∧ decimalLoader.parseInt ['5'] = some 5 ∧
    decimalLoader.parseInt ['a', 'D', 'd'] = none ∧ mnemonicBase (['a', 'D', 'd'].map upperChar) = some 48 ∧
    decimalLoader.parseInt ['6'] = some 6 ∧ (5 : Nat) ≤ 255 ∧ (6 : Nat) ≤ 255 := by decide
theorem witness_builder_line_at_255 : tokens ['2', '5', '5', ' ', 'h', 'L', 'T', ' ', '0'] = [['2', '5', '5'], ['h', 'L', 'T'], ['0']] ∧
    decimalLoader.parseInt ['2', '5', '5'] = some 255 ∧ decimalLoader.parseInt ['h', 'L', 'T'] = none ∧
    mnemonicBase (['h', 'L', 'T'].map upperChar) = some 240 ∧ decimalLoader.parseInt ['0'] = some 0 := by decide
theorem witness_builder_skips_short : (tokens ['5']).length < 2 ∧ (tokens [' ', ' ']).length < 2 := by decide
theorem witness_builder_skips_address : (tokens ['2', '5', '6', ' ', '0']).head? = some ['2', '5', '6'] ∧
    ∀ k : Int, decimalLoader.parseInt ['2', '5', '6'] = some k → k < 0 ∨ 255 < k := by
  refine ⟨by decide, fun k h => ?_⟩
  have h256 : decimalLoader.parseInt ['2', '5', '6'] = some 256 := by decide
  rw [h256] at h
  cases h
  decide
theorem witness_round_trip : (Instr.unmappedC0 0xDF).wellFormed = true ∧ (Instr.sta 255).wellFormed = true := by decide
theorem witness_decoded_bytes : decode [0x2F, 255] = .ok (.lda 255, []) ∧ classify 0x2F ≠ .unmapped ∧
    decode [0xDF] = .ok (.unmappedC0 0xDF, []) ∧ classify 0xDF = .unmapped := by
  exact ⟨rfl, by decide, rfl, by decide⟩
theorem witness_bands : ∀ row ∈ bandTable, row.2.1 ≤ (BitVec.ofNat 8 row.2.2.1).toNat ∧
    (BitVec.ofNat 8 row.2.2.1).toNat ≤ row.2.2.1 ∧ row.2.1 ≤ (BitVec.ofNat 8 row.2.1).toNat := by decide
theorem witness_lengths : (classify 0).length = 1 ∧ (classify 255).length = 1 ∧ (classify 191).length = 2 := by decide
theorem witness_step_below_255 : (at_ 254 [(254, 32), (255, 1)]).run = .run ∧ (at_ 254 [(254, 32), (255, 1)]).pc.toNat ≤ 254 ∧
    decode [(at_ 254 [(254, 32), (255, 1)]).mem.read 254, operandAtPc (at_ 254 [(254, 32), (255, 1)])] = .ok (.lda 1, []) :=
  ⟨rfl, by decide, rfl⟩
theorem witness_step_at_255 : (at_ 255 [(255, 96)]).run = .run ∧ (at_ 255 [(255, 96)]).pc = 255 ∧
    decode [(at_ 255 [(255, 96)]).mem.read 255] = .ok (.not, []) := ⟨rfl, rfl, rfl⟩
theorem witness_terminal : ({ at_ 3 [(2, 240)] with run := .halted } : State).run ≠ .run := by decide
theorem witness_opfault : (at_ 255 [(255, 160)]).run = .run ∧ (at_ 255 [(255, 160)]).pc = 255 ∧
    (classAtPc (at_ 255 [(255, 160)])).length = 2 := by decide

/-- The invariant holds at a running state, and in each kind of terminal state. -/
theorem witness_invariant : (at_ 255 [(255, 32)]).Inv ∧ ({ at_ 256 [(255, 240)] with run := .halted } : State).Inv ∧
    ({ at_ 256 [] with run := .offend } : State).Inv ∧ ({ at_ 255 [(255, 32)] with run := .opfault } : State).Inv := by
  refine ⟨⟨?_, ?_, ?_, ?_, ?_⟩, ⟨?_, ?_, ?_, ?_, ?_⟩, ⟨?_, ?_, ?_, ?_, ?_⟩, ⟨?_, ?_, ?_, ?_, ?_⟩⟩ <;>
    first | decide | (intro h; cases h; done) | exact fun _ => ⟨255, by decide⟩
theorem witness_invariant_step : ∃ t, step (at_ 255 [(255, 32)]) = .next t := ⟨_, rfl⟩
theorem witness_running : (at_ 0 []).run = .run ∧ (at_ 0 []).pc.toNat ≤ 255 ∧ (at_ 255 []).run = .run ∧
    (at_ 255 []).pc.toNat ≤ 255 := by decide
theorem witness_stops : classAtPc (at_ 255 [(255, 240)]) = .hlt ∧ classAtPc (at_ 255 []) ≠ .hlt ∧
    (classAtPc (at_ 255 [(255, 32)])).length = 2 ∧ (at_ 255 [(255, 32)]).pc = 255 := by decide
theorem witness_next_pc : (classAtPc (at_ 255 [])).length = 1 ∧ (classAtPc (at_ 254 [(254, 160)])).length = 2 ∧
    (at_ 254 [(254, 160)]).pc.toNat ≤ 254 ∧ jumpTaken (at_ 254 [(254, 164)]) (classAtPc (at_ 254 [(254, 164)])) = some true := by decide
theorem witness_trace_shape : traceWf [.step 4 200 .unmapped, .unmapped 4 200, .step 5 0 .nop] = true ∧
    (∃ t, step { at_ 6 [(6, 200)] with trace := [.step 5 0 .nop] } = .next t) := ⟨by decide, _, rfl⟩
theorem witness_trace_unread : ∃ t, step (at_ 4 [(4, 200)]) = .next t := ⟨_, rfl⟩
theorem witness_one_byte_rules : (0 : Nat) ≤ (15#8).toNat ∧ (15#8).toNat ≤ 15 ∧ (at_ 255 []).pc.toNat ≤ 255 ∧
    168 ≤ (168#8).toNat ∧ (168#8).toNat ≤ 175 ∧ 192 ≤ (223#8).toNat ∧ (223#8).toNat ≤ 223 := by decide
theorem witness_two_byte_rules : 16 ≤ (16#8).toNat ∧ (31#8).toNat ≤ 31 ∧ (at_ 254 [(254, 16), (255, 254)]).mem.wf = true ∧
    (at_ 254 [(254, 16), (255, 254)]).pc.toNat ≤ 254 ∧ (at_ 255 [(255, 16)]).pc = 255 := by decide
theorem witness_nops_to_the_end : (at_ 254 [(254, 15)]).run = .run ∧ (at_ 254 [(254, 15)]).pc.toNat ≤ 255 ∧
    ∀ k, (at_ 254 [(254, 15)]).pc.toNat ≤ k → k ≤ 255 → classify ((at_ 254 [(254, 15)]).mem.read k) = .nop := by
  refine ⟨rfl, by decide, fun k h1 h2 => ?_⟩
  have h : k = 254 ∨ k = 255 := by
    have h3 : (at_ 254 [(254, 15)]).pc.toNat = 254 := rfl
    omega
  rcases h with rfl | rfl <;> decide
theorem witness_jump_to_itself : (at_ 254 [(254, 188), (255, 254)]).run = .run ∧ (at_ 254 [(254, 188), (255, 254)]).pc.toNat ≤ 254 ∧
    jumpTaken (at_ 254 [(254, 188), (255, 254)]) (classAtPc (at_ 254 [(254, 188), (255, 254)])) = some true ∧
    (operandAtPc (at_ 254 [(254, 188), (255, 254)])).toNat = (at_ 254 [(254, 188), (255, 254)]).pc.toNat := by decide
theorem witness_copy : (at_ 252 [(9, 200)]).mem.wf = true ∧ (at_ 252 [(9, 200)]).pc.toNat ≤ 252 := by decide
theorem witness_only_sta : (at10 16 0x96 0 []).mem.wf = true ∧
    (nextOf (step (at10 16 0x96 0 []))).map (fun t => (t.mem.read 200, (at10 16 0x96 0 []).mem.read 200)) = some (0x96, 0) := by decide
theorem witness_stored_code : (at_ 253 [(253, 16), (254, 255)]).mem.wf = true ∧ (at_ 253 [(253, 16), (254, 255)]).run = .run ∧
    (at_ 253 [(253, 16), (254, 255)]).pc.toNat ≤ 253 ∧ classAtPc (at_ 253 [(253, 16), (254, 255)]) = .sta ∧
    (operandAtPc (at_ 253 [(253, 16), (254, 255)])).toNat = (at_ 253 [(253, 16), (254, 255)]).pc.toNat + 2 := by decide
theorem witness_alu_laws : (at_ 254 [(254, 48)]).pc.toNat ≤ 254 := by decide
theorem witness_sets_nz : (flagsWritten (Instr.not).cls).1 = true ∧ (at_ 255 []).pc.toNat + (Instr.not).cls.length ≤ 256 ∧
    (flagsWritten (Instr.add 0).cls).1 = true ∧ (at_ 254 []).pc.toNat + (Instr.add 0).cls.length ≤ 256 := by decide
theorem witness_flags : (∃ t, exec .ror (at_ 255 []) = .next t) ∧ (flagsWritten (Instr.ror).cls).1 = false ∧
    (flagsWritten (Instr.sub 3).cls).2.2.2.2 = true ∧ (at_ 254 []).pc.toNat + (Instr.sub 3).cls.length ≤ 256 ∧
    (∃ t, exec (.sub 3) (at_ 254 []) = .next t) ∧ (∃ t, exec (.sub 3) { at_ 254 [] with b := true } = .next t) :=
  ⟨⟨_, rfl⟩, by decide, by decide, by decide, ⟨_, rfl⟩, ⟨_, rfl⟩⟩
theorem witness_accumulator_users : (Instr.jb 3).cls ∈ [OpClass.nop, .hlt, .unmapped, .jmp, .jn, .jp, .jv, .jnv, .jz, .jnz, .jc, .jnc,
    .jb, .jnb] ∧ (∃ t, exec (.jb 3) (at_ 254 []) = .next t) ∧ (∃ t, exec (.sta 3) (at_ 255 []) = .next t) :=
  ⟨by decide, ⟨_, rfl⟩, ⟨_, rfl⟩⟩
theorem witness_pc_unread : (at_ 0 []).pc.toNat + (Instr.add 3).cls.length ≤ 256 ∧ (at_ 254 []).pc.toNat + (Instr.add 3).cls.length ≤ 256 ∧
    (∃ t, exec (.add 3) (at_ 0 []) = .next t) := ⟨by decide, by decide, _, rfl⟩
theorem witness_rotates : (at_ 255 []).pc.toNat ≤ 255 ∧ (at_ 247 []).pc.toNat ≤ 247 ∧ (at_ 254 []).pc.toNat ≤ 254 := by decide

end Sys2Proof.Tests
end

section
/-! The statements of 00_scope.md: no run is ever aborted (R16, R31, R236), and what `ROTATE_SETS_NZ` decides
(R7, R198). Before them, what a fetch gives and what one step does to a state with the invariant. -/

namespace Sys2Proof.Machine

open Sys2Proof.Claims

/-! ### Decoding a first byte -/

theorem unmappedRow_cls (op : Byte) : (unmappedRow op).cls = .unmapped := by
  unfold unmappedRow
  split <;> rfl

theorem length_one_or_two (cls : OpClass) : cls.length = 1 ∨ cls.length = 2 := by
  cases cls <;> decide

/-- R71, R79: a byte of a one-byte class is an instruction of that class by itself. -/
theorem decode_of_length_one {op : Byte} (tl : List Byte) (h : (classify op).length = 1) :
    ∃ i, decode (op :: tl) = .ok (i, tl) ∧ i.cls = classify op := by
  simp only [decode]
  generalize classify op = cls at h
  cases cls with
  | nop | not | shr | shl | ror | rol | hlt => exact ⟨_, rfl, rfl⟩
  | unmapped => exact ⟨_, rfl, unmappedRow_cls op⟩
  | sta | lda | add | or | and | sub | jmp | jn | jp | jv | jnv | jz | jnz | jc | jnc | jb | jnb => cases h

/-- R71, R79: a byte of a two-byte class takes the byte after it as its operand. -/
theorem decode_of_length_two {op : Byte} (a : Byte) (tl : List Byte) (h : (classify op).length = 2) :
    ∃ i, decode (op :: a :: tl) = .ok (i, tl) ∧ i.cls = classify op := by
  simp only [decode]
  generalize classify op = cls at h
  cases cls with
  | nop | not | shr | shl | ror | rol | hlt | unmapped => cases h
  | sta | lda | add | or | and | sub | jmp | jn | jp | jv | jnv | jz | jnz | jc | jnc | jb | jnb =>
    exact ⟨_, rfl, rfl⟩

/-- R104: without a byte after it, a byte of a two-byte class misses its operand. -/
theorem decode_missingOperand {op : Byte} (h : (classify op).length = 2) :
    decode [op] = .error (.missingOperand (classify op)) := by
  simp only [decode]
  generalize classify op = cls at h
  cases cls with
  | nop | not | shr | shl | ror | rol | hlt | unmapped => cases h
  | sta | lda | add | or | and | sub | jmp | jn | jp | jv | jnv | jz | jnz | jc | jnc | jb | jnb => rfl

/-! ### The fetch -/

theorem State.fetchBytes_of_length_one {s : State} (hp : s.pc.toNat ≤ 255)
    (h : (classify s.opcode).length = 1) : s.fetchBytes = [s.opcode] := by
  simp [State.fetchBytes, Nat.lt_succ_of_le hp, h]

theorem State.fetchBytes_of_length_two {s : State} (hp : s.pc.toNat ≤ 255)
    (h : (classify s.opcode).length = 2) : s.fetchBytes = s.opcode :: s.operandBytes := by
  simp [State.fetchBytes, Nat.lt_succ_of_le hp, h]

/-- All that a fetch from an address can give: an instruction of the class at PC whose bytes all exist, or at
255 the missing operand of a two-byte class (R101 to R104). -/
theorem State.fetch_cases {s : State} (hp : s.pc.toNat ≤ 255) :
    (∃ i, s.fetch = .ok i ∧ i.cls = classAtPc s ∧ Fits i s) ∨
      (s.pc = 255 ∧ (classAtPc s).length = 2 ∧ s.fetch = .error (.missingOperand (classAtPc s))) := by
  rcases length_one_or_two (classAtPc s) with h | h
  · obtain ⟨i, hi, hcls⟩ := decode_of_length_one [] h
    refine .inl ⟨i, fetch_ok ((congrArg decode (fetchBytes_of_length_one hp h)).trans hi), hcls, ?_⟩
    have hlen : i.cls.length = 1 := hcls ▸ h
    unfold Fits
    omega
  · have hbytes := fetchBytes_of_length_two hp h
    by_cases hlt : s.pc.toNat < 255
    · rw [operandBytes, if_pos hlt] at hbytes
      obtain ⟨i, hi, hcls⟩ := decode_of_length_two (operandAtPc s) [] h
      refine .inl ⟨i, fetch_ok ((congrArg decode hbytes).trans hi), hcls, ?_⟩
      have hlen : i.cls.length = 2 := hcls ▸ h
      unfold Fits
      omega
    · rw [operandBytes, if_neg hlt] at hbytes
      have hpc : s.pc = 255 := BitVec.eq_of_toNat_eq (by simp; omega)
      exact .inr ⟨hpc, h, fetch_error ((congrArg decode hbytes).trans (decode_missingOperand h))⟩

theorem step_of_fetch_ok {s : State} {i : Instr} (hr : s.run = .run) (hf : s.fetch = .ok i) :
    step s = exec i s.recordStep := by
  simp [step, hr, hf]

theorem step_of_missingOperand {s : State} {cls : OpClass} (hr : s.run = .run)
    (hf : s.fetch = .error (.missingOperand cls)) : step s = .next s.recordStep.enterOpFault := by
  simp [step, hr, hf, stepUnfetched]

/-! ### The invariant under the operations of the sequencer -/

/-- What the invariant says of a running state: it is all that an instruction meets. -/
structure State.Running (s : State) : Prop where
  run : s.run = .run
  pc : s.pc.toNat ≤ 255
  memory : s.mem.wf = true

theorem State.Inv.toRunning {s : State} (h : s.Inv) (hr : s.run = .run) : s.Running :=
  ⟨hr, h.running hr, h.memory⟩

theorem State.Running.inv {s : State} (h : s.Running) : s.Inv := by
  constructor <;> simp [h.run, h.pc, h.memory]

theorem State.inv_of_halted {s : State} (hr : s.run = .halted) (hm : s.mem.wf = true)
    (hpc : ∃ k, s.pc.toNat = k + 1 ∧ k ≤ 255 ∧ classify (s.mem.read k) = .hlt) : s.Inv := by
  constructor <;> simp [hr, hm, hpc]

theorem State.inv_of_offend {s : State} (hr : s.run = .offend) (hm : s.mem.wf = true) (hpc : s.pc = 256) :
    s.Inv := by
  constructor <;> simp [hr, hm, hpc]

theorem State.inv_of_opfault {s : State} (hr : s.run = .opfault) (hm : s.mem.wf = true) (hpc : s.pc = 255)
    (hlen : (classAtPc s).length = 2) : s.Inv := by
  have hlen255 : (classify (s.mem.read 255)).length = 2 := by simpa [classAtPc, hpc] using hlen
  constructor <;> simp [hr, hm, hpc, hlen255]

theorem State.Running.recordStep {s : State} (h : s.Running) : s.recordStep.Running :=
  ⟨h.run, h.pc, h.memory⟩

/-- An advance leads to an address, or to 256 and so to OFFEND (R106). -/
theorem State.goTo_inv {s : State} {next : PcWord} (hr : s.run = .run) (hm : s.mem.wf = true)
    (hn : next.toNat ≤ 256) : (s.goTo next).Inv := by
  by_cases h256 : next.toNat = 256
  · exact inv_of_offend (runAfter_of_eq h256) hm (BitVec.eq_of_toNat_eq h256)
  · have hn255 : next.toNat ≤ 255 := by omega
    exact Running.inv ⟨(runAfter_of_ne h256).trans hr, hn255, hm⟩

theorem State.Running.halt_inv {s : State} (h : s.Running) (hcls : classAtPc s = .hlt) : s.halt.Inv :=
  have hpc : s.halt.pc.toNat = s.pc.toNat + 1 := pcPlus_toNat s 1 (by have := h.pc; omega)
  inv_of_halted s.halt_run h.memory ⟨s.pc.toNat, hpc, h.pc, hcls⟩

theorem State.Running.enterOpFault_inv {s : State} (h : s.Running) (hpc : s.pc = 255)
    (hlen : (classAtPc s).length = 2) : s.enterOpFault.Inv :=
  inv_of_opfault s.enterOpFault_run h.memory hpc hlen

/-! ### Going on: the instruction forms, the instructions, the step -/

/-- The outcome is a next state with the invariant: no fault and no refusal. -/
def GoesOn (o : Host.Outcome State Fault Refusal) : Prop := ∃ t, o = .next t ∧ t.Inv

theorem oneByteForm_goesOn {effect : State} (h : effect.Running) : GoesOn (oneByteForm effect) := by
  have hp := h.pc
  refine ⟨_, rfl, State.goTo_inv h.run h.memory ?_⟩
  rw [State.pcPlus_toNat effect 1 (by omega)]
  omega

theorem twoByteForm_goesOn {s effect : State} (hfit : s.pc.toNat < 255) (hpc : effect.pc = s.pc)
    (h : effect.Running) : GoesOn (twoByteForm s effect.finishTwoByte) := by
  have hp : effect.pc.toNat < 255 := hpc ▸ hfit
  refine ⟨_, twoByteForm_fits hfit, State.goTo_inv h.run h.memory ?_⟩
  rw [State.pcPlus_toNat effect 2 (by omega)]
  omega

theorem jumpIf_goesOn {s : State} (cond : Bool) (a : Byte) (h : s.Running) (hfit : s.pc.toNat < 255) :
    GoesOn (jumpIf cond a s) := by
  cases cond with
  | false => exact twoByteForm_goesOn hfit rfl h
  | true =>
    have ha : (jumpTarget a).toNat ≤ 256 := by rw [jumpTarget_toNat]; have := a.isLt; omega
    exact ⟨_, twoByteForm_fits hfit, State.goTo_inv h.run h.memory ha⟩

/-- Every instruction whose bytes exist goes on; HLT needs a HLT byte at PC, which HALTED records (R111). -/
theorem exec_goesOn {i : Instr} {s : State} (h : s.Running) (hfit : Fits i s) (hcls : i.cls = classAtPc s) :
    GoesOn (exec i s) := by
  have hlt : i.cls.length = 2 → s.pc.toNat < 255 := by unfold Fits at hfit; omega
  cases i with
  | nop | not | shr | shl | ror | rol => exact oneByteForm_goesOn ⟨h.run, h.pc, h.memory⟩
  | unmappedA8 op | unmappedC0 op => exact oneByteForm_goesOn ⟨h.run, h.pc, h.memory⟩
  | hlt => exact ⟨_, rfl, h.halt_inv hcls.symm⟩
  | sta a => exact twoByteForm_goesOn (hlt rfl) rfl ⟨h.run, h.pc, Memory.write_wf h.memory a.isLt⟩
  | lda a | add a | or a | and a | sub a => exact twoByteForm_goesOn (hlt rfl) rfl ⟨h.run, h.pc, h.memory⟩
  | jmp a | jn a | jp a | jv a | jnv a | jz a | jnz a | jc a | jnc a | jb a | jnb a =>
    exact jumpIf_goesOn _ a h (hlt rfl)

/-- The step lemma: from the invariant every step goes on (R31, R104, R236). -/
theorem step_goesOn {s : State} (h : s.Inv) : GoesOn (step s) := by
  by_cases hr : s.run = .run
  · have hs : s.Running := h.toRunning hr
    rcases State.fetch_cases hs.pc with ⟨i, hf, hcls, hfit⟩ | ⟨hpc, hlen, hf⟩
    · rw [step_of_fetch_ok hr hf]
      exact exec_goesOn hs.recordStep hfit hcls
    · rw [step_of_missingOperand hr hf]
      exact ⟨_, rfl, hs.recordStep.enterOpFault_inv hpc hlen⟩
  · exact ⟨s, step_terminal hr, h⟩

theorem steps_succ_of_step {s t : State} (k : Nat) (h : step s = .next t) : steps (k + 1) s = steps k t := by
  simp [steps, h]

/-- Settles O17, by induction on the number of steps: `step_goesOn` is its one step. -/
theorem noRunIsEverAborted : Obligations.NoRunIsEverAborted := by
  intro k
  induction k with
  | zero => exact fun s h => ⟨s, rfl, h⟩
  | succ k ih =>
    intro s h
    obtain ⟨t, hstep, ht⟩ := step_goesOn h
    rw [steps_succ_of_step k hstep]
    exact ih t ht

/-! ### The write-back of a rotate -/

theorem State.setRotated_false (s : State) (r : Byte) (carry : Bool) :
    s.setRotated false r carry = { s with ac := r, c := carry } := rfl

theorem State.setRotated_true (s : State) (r : Byte) (carry : Bool) :
    s.setRotated true r carry = { s with ac := r, c := carry, n := bit7 r, z := isZero r } := rfl

/-- Settles O50, by the two readings of the write-back, with the N and Z functions of R141 as numbers. -/
theorem rotateParameterDecidesOnlyNAndZ : Obligations.RotateParameterDecidesOnlyNAndZ := by
  refine ⟨rfl, fun s r carry => ⟨s.setRotated_false r carry, ?_⟩⟩
  rw [s.setRotated_true r carry, bit7_eq, isZero_eq]

end Sys2Proof.Machine
end

section
/-! The statements of 10_state.md: terminal states (R31, R40), the invariant and the next PC of a step (R24, R25,
R31), who writes the flags and who uses AC and PC (R22, R26, R28), and reset (R35, R240). -/

namespace Sys2Proof.Machine

open Sys2Proof.Claims

/-! ### Terminal states and the invariant -/

/-- Settles O14, by induction on the number of steps: `step_terminal` is its one step. -/
theorem terminalStatesAreNeverLeft : Obligations.TerminalStatesAreNeverLeft := by
  intro s k hterm
  induction k with
  | zero => rfl
  | succ k ih => exact (steps_succ_of_step k (step_terminal hterm)).trans ih

/-- Settles O16: the one next state of `step_goesOn` is the one the step answers. -/
theorem everyStepKeepsTheInvariant : Obligations.EveryStepKeepsTheInvariant := by
  intro s t hinv hstep
  obtain ⟨u, hu, huInv⟩ := step_goesOn hinv
  have htu : t = u := Host.Outcome.next.inj (hstep.symm.trans hu)
  exact htu ▸ huInv

/-! ### Reset -/

theorem Memory.ofBytes_replicate_unlisted (k n : Nat) :
    Memory.ofBytes k (List.replicate n unlistedByte) = [] := by
  induction n generalizing k with
  | zero => rfl
  | succ n ih => simpa [List.replicate_succ, Memory.ofBytes] using ih (k + 1)

/-- Settles O2: every cell of the all-zero image reads as an unlisted one, so the canonical list is empty. -/
theorem plainResetIsTheZeroImageReset : Obligations.PlainResetIsTheZeroImageReset := by
  have hmem : Memory.ofImage (Vector.replicate 256 0) = [] := by
    rw [Memory.ofImage, Vector.toList_replicate]
    exact Memory.ofBytes_replicate_unlisted 0 256
  unfold Obligations.PlainResetIsTheZeroImageReset State.resetWith
  rw [hmem]
  rfl

theorem State.resetWith_running (image : Vector Byte 256) : (State.resetWith image).Running :=
  ⟨rfl, Nat.zero_le 255, Memory.ofImage_wf image⟩

/-- Settles O3: a reset state runs at PC 0 on the canonical memory of its image; the plain reset is one of them
by O2. -/
theorem everyResetMeetsTheInvariant : Obligations.EveryResetMeetsTheInvariant := by
  refine ⟨?_, fun image => ⟨(State.resetWith_running image).inv, rfl⟩⟩
  rw [plainResetIsTheZeroImageReset]
  exact (State.resetWith_running _).inv

/-! ### The next PC -/

/-- Every instruction answers a next state: no fault and no refusal, whatever the state. -/
theorem exec_answers (i : Instr) (s : State) : ∃ t, exec i s = .next t := by
  cases i <;> exact ⟨_, rfl⟩

theorem exec_pc_of_length_one {i : Instr} {s t : State} (hlen : i.cls.length = 1) (h : exec i s = .next t) :
    t.pc = s.pcPlus 1 := by
  cases i with
  | nop | not | shr | shl | ror | rol | hlt | unmappedA8 op | unmappedC0 op => cases h; rfl
  | sta a | lda a | add a | or a | and a | sub a => cases hlen
  | jmp a | jn a | jp a | jv a | jnv a | jz a | jnz a | jc a | jnc a | jb a | jnb a => cases hlen

theorem twoByteForm_pc {s effect t : State} (hfit : s.pc.toNat < 255)
    (h : twoByteForm s effect.finishTwoByte = .next t) (hpc : effect.pc = s.pc) : t.pc = s.pcPlus 2 := by
  rw [twoByteForm_fits hfit] at h
  cases h
  simp [State.pcPlus, hpc]

theorem jumpIf_pc {cond : Bool} {a : Byte} {s t : State} (hfit : s.pc.toNat < 255)
    (h : jumpIf cond a s = .next t) : t.pc = if some cond = some true then jumpTarget a else s.pcPlus 2 := by
  rcases jumpIf_cases h with ⟨-, rfl, rfl⟩ | ⟨-, rfl, rfl⟩ | ⟨hoff, -⟩
  · rfl
  · rfl
  · exact absurd hfit hoff

/-- R105, R171: a two-byte instruction goes to its operand, the second byte of its encoding, if its jump is
taken, and else past itself. -/
theorem exec_pc_of_length_two {i : Instr} {a : Byte} {s t : State} (hlen : i.cls.length = 2)
    (ha : (encode i).tail = [a]) (hfit : s.pc.toNat < 255) (h : exec i s = .next t) :
    t.pc = if jumpTaken s i.cls = some true then jumpTarget a else s.pcPlus 2 := by
  cases i with
  | nop | not | shr | shl | ror | rol | hlt | unmappedA8 op | unmappedC0 op => cases hlen
  | sta b | lda b | add b | or b | and b | sub b => exact twoByteForm_pc hfit h rfl
  | jmp b | jn b | jp b | jv b | jnv b | jz b | jnz b | jc b | jnc b | jb b | jnb b =>
    cases ha
    exact jumpIf_pc hfit h

/-- R81: the operand that a two-byte class takes is the byte after the first. -/
theorem encode_tail_of_decode {op a : Byte} {tl rest : List Byte} {i : Instr} (hlen : (classify op).length = 2)
    (h : decode (op :: a :: tl) = .ok (i, rest)) : (encode i).tail = [a] := by
  simp only [decode] at h
  generalize classify op = cls at h hlen
  cases cls with
  | nop | not | shr | shl | ror | rol | hlt | unmapped => cases hlen
  | sta | lda | add | or | and | sub | jmp | jn | jp | jv | jnv | jz | jnz | jc | jnc | jb | jnb =>
    cases h
    rfl

theorem State.decode_of_fetch_ok {s : State} {i : Instr} (h : s.fetch = .ok i) :
    ∃ rest, decode s.fetchBytes = .ok (i, rest) := by
  unfold State.fetch at h
  split at h
  next j rest hdec => cases h; exact ⟨rest, hdec⟩
  next => cases h

/-- R103: below 255 the operand of a fetched two-byte instruction is the byte after its opcode. -/
theorem State.encode_tail_of_fetch {s : State} {i : Instr} (hp : s.pc.toNat < 255)
    (hlen : (classAtPc s).length = 2) (h : s.fetch = .ok i) : (encode i).tail = [operandAtPc s] := by
  obtain ⟨rest, hdec⟩ := decode_of_fetch_ok h
  rw [fetchBytes_of_length_two hp.le hlen, operandBytes, if_pos hp] at hdec
  exact encode_tail_of_decode hlen hdec

/-- Settles O19, by what the fetch gives: an instruction of the class at PC, whose next PC its length and its
jump decide, or the missing operand at 255. -/
theorem nextPcFollowsTheClass : Obligations.NextPcFollowsTheClass := by
  intro s hr hp
  rcases State.fetch_cases hp with ⟨i, hf, hcls, hfit⟩ | ⟨hpc, hlen, hf⟩
  · obtain ⟨t, ht⟩ := exec_answers i s.recordStep
    unfold Fits at hfit
    refine ⟨t, (step_of_fetch_ok hr hf).trans ht, fun hone => ?_, fun htwo hpc => ?_, fun htwo hlt => ?_⟩
    · rw [exec_pc_of_length_one (hcls ▸ hone) ht, State.recordStep_pcPlus, s.pcPlus_toNat 1 (by omega)]
    · rw [hcls, htwo, hpc] at hfit
      exact absurd hfit (by decide)
    · have hfit' : s.pc.toNat < 255 := by omega
      have hnext := exec_pc_of_length_two (s := s.recordStep) (hcls ▸ htwo)
        (State.encode_tail_of_fetch hfit' htwo hf) hfit' ht
      rw [hcls] at hnext
      rw [hnext, apply_ite BitVec.toNat, jumpTarget_toNat, State.recordStep_pcPlus,
        s.pcPlus_toNat 2 (by omega)]
      rfl
  · refine ⟨_, step_of_missingOperand hr hf, fun hone => ?_, fun _ _ => rfl, fun _ hlt => ?_⟩
    · omega
    · rw [hpc] at hlt
      exact absurd hlt (by decide)

/-! ### What an instruction does to AC, the flags and memory -/

/-- Two states hold the same data: AC, the flags and memory. PC, State and the trace may differ. -/
structure SameData (s t : State) : Prop where
  ac : s.ac = t.ac
  n : s.n = t.n
  z : s.z = t.z
  v : s.v = t.v
  c : s.c = t.c
  b : s.b = t.b
  mem : s.mem = t.mem

theorem SameData.refl (s : State) : SameData s s := ⟨rfl, rfl, rfl, rfl, rfl, rfl, rfl⟩

/-- An instruction's effect without the advance of the PC; `exec_data` ties it to `exec`. -/
def dataEffect (i : Instr) (s : State) : State :=
  match i with
  | .sta a => s.store a s.ac
  | .lda a => s.setAcNZ (dataOperand a s)
  | .add a =>
    ((s.setV (addOverflow s.ac (dataOperand a s))).setC (addCarry s.ac (dataOperand a s))).setAcNZ
      (addResult s.ac (dataOperand a s))
  | .or a => s.setAcNZ (s.ac ||| dataOperand a s)
  | .and a => s.setAcNZ (s.ac &&& dataOperand a s)
  | .not => s.setAcNZ (~~~s.ac)
  | .sub a =>
    ((s.setV (subOverflow s.ac (dataOperand a s))).setB (subBorrow s.ac (dataOperand a s))).setAcNZ
      (subResult s.ac (dataOperand a s))
  | .shr => (s.setC (bit0 s.ac)).setAcNZ (shrResult s.ac)
  | .shl => (s.setC (bit7 s.ac)).setAcNZ (shlResult s.ac)
  | .ror => s.setRotated Config.rotateSetsNZ (rorResult s.c s.ac) (bit0 s.ac)
  | .rol => s.setRotated Config.rotateSetsNZ (rolResult s.c s.ac) (bit7 s.ac)
  | .nop | .hlt | .unmappedA8 _ | .unmappedC0 _ => s
  | .jmp _ | .jn _ | .jp _ | .jv _ | .jnv _ | .jz _ | .jnz _ | .jc _ | .jnc _ | .jb _ | .jnb _ => s

theorem twoByteForm_data {s effect t : State} (h : twoByteForm s effect.finishTwoByte = .next t) :
    SameData t effect ∨ (¬ s.pc.toNat < 255 ∧ SameData t s) := by
  rcases twoByteForm_cases h with ⟨-, rfl⟩ | ⟨hoff, rfl⟩
  · exact .inl ⟨rfl, rfl, rfl, rfl, rfl, rfl, rfl⟩
  · exact .inr ⟨hoff, ⟨rfl, rfl, rfl, rfl, rfl, rfl, rfl⟩⟩

theorem jumpIf_data {cond : Bool} {a : Byte} {s t : State} (h : jumpIf cond a s = .next t) : SameData t s := by
  rcases jumpIf_cases h with ⟨-, -, rfl⟩ | ⟨-, -, rfl⟩ | ⟨-, rfl⟩ <;> exact ⟨rfl, rfl, rfl, rfl, rfl, rfl, rfl⟩

/-- All that an instruction can do to the data: its effect, or nothing where its operand does not exist. -/
theorem exec_data {i : Instr} {s t : State} (h : exec i s = .next t) :
    SameData t (dataEffect i s) ∨ (¬ Fits i s ∧ SameData t s) := by
  have hoff : i.cls.length = 2 → ¬ s.pc.toNat < 255 → ¬ Fits i s := by unfold Fits; omega
  cases i with
  | nop | not | shr | shl | ror | rol | hlt | unmappedA8 op | unmappedC0 op =>
    cases h
    exact .inl ⟨rfl, rfl, rfl, rfl, rfl, rfl, rfl⟩
  | sta a | lda a | add a | or a | and a | sub a => exact (twoByteForm_data h).imp_right (And.imp_left (hoff rfl))
  | jmp a | jn a | jp a | jv a | jnv a | jz a | jnz a | jc a | jnc a | jb a | jnb a => exact .inl (jumpIf_data h)

theorem exec_data_of_fits {i : Instr} {s t : State} (hfit : Fits i s) (h : exec i s = .next t) :
    SameData t (dataEffect i s) :=
  (exec_data h).resolve_right fun hoff => hoff.1 hfit

/-! ### Who writes the flags -/

/-- Two states agree on the flags whose entry in a row of R28's table is `x`. -/
def FlagsAgreeWhere (x : Bool) (row : Bool × Bool × Bool × Bool × Bool) (t s : State) : Prop :=
  (row.1 = x → t.n = s.n) ∧ (row.2.1 = x → t.z = s.z) ∧ (row.2.2.1 = x → t.v = s.v) ∧
    (row.2.2.2.1 = x → t.c = s.c) ∧ (row.2.2.2.2 = x → t.b = s.b)

theorem FlagsAgreeWhere.refl (x : Bool) (row : Bool × Bool × Bool × Bool × Bool) (s : State) :
    FlagsAgreeWhere x row s s :=
  ⟨fun _ => rfl, fun _ => rfl, fun _ => rfl, fun _ => rfl, fun _ => rfl⟩

theorem FlagsAgreeWhere.of_sameData {x : Bool} {row : Bool × Bool × Bool × Bool × Bool} {t t' s s' : State}
    (ht : SameData t t') (hs : SameData s s') (h : FlagsAgreeWhere x row t' s') : FlagsAgreeWhere x row t s := by
  simpa only [FlagsAgreeWhere, ht.n, ht.z, ht.v, ht.c, ht.b, hs.n, hs.z, hs.v, hs.c, hs.b] using h

/-- R28: an effect keeps every flag outside its row. -/
theorem dataEffect_keeps_flags (i : Instr) (s : State) :
    FlagsAgreeWhere false (flagsWritten i.cls) (dataEffect i s) s := by
  cases i with
  | nop | hlt | sta a | unmappedA8 op | unmappedC0 op => exact .refl _ _ _
  | jmp a | jn a | jp a | jv a | jnv a | jz a | jnz a | jc a | jnc a | jb a | jnb a => exact .refl _ _ _
  | lda a | or a | and a | not | add a | sub a | shr | shl =>
    simp [FlagsAgreeWhere, flagsWritten, Instr.cls, dataEffect]
  | ror | rol => simp [FlagsAgreeWhere, flagsWritten, Instr.cls, dataEffect, Config.rotateSetsNZ]

/-- R28, R153: an effect computes the flags of its row from AC and memory, never from a flag. -/
theorem dataEffect_computes_flags (i : Instr) {s s' : State} (hac : s'.ac = s.ac) (hmem : s'.mem = s.mem) :
    FlagsAgreeWhere true (flagsWritten i.cls) (dataEffect i s') (dataEffect i s) := by
  have hload (a : Byte) : dataOperand a s' = dataOperand a s := congrArg (Memory.read · a.toNat) hmem
  cases i with
  | nop | hlt | sta a | unmappedA8 op | unmappedC0 op => simp [FlagsAgreeWhere, flagsWritten, Instr.cls]
  | jmp a | jn a | jp a | jv a | jnv a | jz a | jnz a | jc a | jnc a | jb a | jnb a =>
    simp [FlagsAgreeWhere, flagsWritten, Instr.cls]
  | lda a | or a | and a | add a | sub a =>
    simp [FlagsAgreeWhere, flagsWritten, Instr.cls, dataEffect, hac, hload]
  | not | shr | shl | ror | rol => simp [FlagsAgreeWhere, flagsWritten, Instr.cls, dataEffect, hac]

/-- Settles O42, by the two facts about the effect of an instruction, which `exec_data` carries over to its
outcome. -/
theorem flagsChangeOnlyByTheTable : Obligations.FlagsChangeOnlyByTheTable := by
  constructor
  · intro i s t h
    rcases exec_data h with ht | ⟨-, ht⟩
    · exact FlagsAgreeWhere.of_sameData ht (.refl s) (dataEffect_keeps_flags i s)
    · exact FlagsAgreeWhere.of_sameData ht (.refl s) (.refl _ _ s)
  · intro i s s' t t' hfit hpc hac hmem h h'
    have hfit' : Fits i s' := by unfold Fits at hfit ⊢; rwa [hpc]
    exact FlagsAgreeWhere.of_sameData (exec_data_of_fits hfit' h') (exec_data_of_fits hfit h)
      (dataEffect_computes_flags i hac hmem)

/-! ### Who uses AC and PC -/

theorem jumpIf_of_other_ac {cond : Bool} {a : Byte} {s t : State} (x : Byte) (h : jumpIf cond a s = .next t) :
    jumpIf cond a { s with ac := x } = .next { t with ac := x } := by
  rcases jumpIf_cases h with ⟨hfit, rfl, rfl⟩ | ⟨hfit, rfl, rfl⟩ | ⟨hoff, rfl⟩
  · exact twoByteForm_fits hfit
  · exact twoByteForm_fits hfit
  · exact twoByteForm_off_end hoff

/-- Settles O43, by the form of each instruction: a jump looks at its one flag, and LDA's effect overwrites AC. -/
theorem accumulatorUsersAreTheListedOnes : Obligations.AccumulatorUsersAreTheListedOnes := by
  refine ⟨fun i s t x hi h => ?_, fun a s t h => ?_, fun a x s hp => ?_⟩
  · cases i with
    | nop | hlt | unmappedA8 op | unmappedC0 op => cases h; exact ⟨rfl, rfl⟩
    | jmp a | jn a | jp a | jv a | jnv a | jz a | jnz a | jc a | jnc a | jb a | jnb a =>
      exact ⟨(jumpIf_data h).ac, jumpIf_of_other_ac x h⟩
    | sta a | lda a | add a | or a | and a | sub a => simp [Instr.cls] at hi
    | not | shr | shl | ror | rol => simp [Instr.cls] at hi
  · rcases exec_data h with ht | ⟨-, ht⟩ <;> exact ht.ac
  · have hfit : s.pc.toNat < 255 := by omega
    calc exec (.lda a) { s with ac := x } = .next (s.setAcNZ (dataOperand a s)).finishTwoByte :=
          twoByteForm_fits hfit
      _ = exec (.lda a) s := (twoByteForm_fits hfit).symm

theorem dataEffect_of_other_pc (i : Instr) (s : State) (p : PcWord) :
    dataEffect i { s with pc := p } = { dataEffect i s with pc := p } := by
  cases i <;> rfl

/-- Settles O44: an instruction's effect on the data takes nothing from the PC. -/
theorem pcIsNeverReadAsData : Obligations.PcIsNeverReadAsData := by
  intro i s t p hfit hfit' h
  obtain ⟨t', ht'⟩ := exec_answers i { s with pc := p }
  have hs := exec_data_of_fits hfit h
  have hs' := exec_data_of_fits hfit' ht'
  rw [dataEffect_of_other_pc] at hs'
  exact ⟨t', ht', hs'.ac.trans hs.ac.symm, hs'.n.trans hs.n.symm, hs'.z.trans hs.z.symm,
    hs'.v.trans hs.v.symm, hs'.c.trans hs.c.symm, hs'.b.trans hs.b.symm, hs'.mem.trans hs.mem.symm⟩

end Sys2Proof.Machine
end

section
/-! The statements of 20_memory.md: STA alone writes memory (R51, R52), and a stored byte is the next opcode
(R60, R63). Before them, what a step does to memory, to the trace and to the run state. -/

namespace Sys2Proof.Machine

open Sys2Proof.Claims

/-! ### The step of a STA -/

theorem eq_sta_of_cls {i : Instr} (h : i.cls = .sta) : ∃ a, i = .sta a := by
  cases i with
  | sta a => exact ⟨a, rfl⟩
  | nop | not | shr | shl | ror | rol | hlt | unmappedA8 op | unmappedC0 op => cases h
  | lda a | add a | or a | and a | sub a => cases h
  | jmp a | jn a | jp a | jv a | jnv a | jz a | jnz a | jc a | jnc a | jb a | jnb a => cases h

/-- R102: a fetched instruction has the class of the opcode byte at PC. -/
theorem State.cls_of_fetch {s : State} {i : Instr} (hp : s.pc.toNat ≤ 255) (h : s.fetch = .ok i) :
    i.cls = classAtPc s := by
  rcases fetch_cases hp with ⟨j, hj, hcls, -⟩ | ⟨-, -, herr⟩
  · cases h.symm.trans hj
    exact hcls
  · cases h.symm.trans herr

/-- R103: the address that a fetched STA carries is the byte after its opcode. -/
theorem State.fetch_of_sta {s : State} (hp : s.pc.toNat < 255) (hcls : classAtPc s = .sta) :
    s.fetch = .ok (.sta (operandAtPc s)) := by
  rcases fetch_cases hp.le with ⟨i, hf, hi, -⟩ | ⟨h255, -, -⟩
  · obtain ⟨a, rfl⟩ := eq_sta_of_cls (hi.trans hcls)
    have ha : [a] = [operandAtPc s] := encode_tail_of_fetch hp (by rw [hcls]; rfl) hf
    rw [hf, List.singleton_inj.mp ha]
  · rw [h255] at hp
    exact absurd hp (by decide)

/-- R60, R130: the operand is latched from the memory before the store, so the step is the same whichever cell
it overwrites. -/
theorem step_of_sta {s : State} (hr : s.run = .run) (hp : s.pc.toNat < 255) (hcls : classAtPc s = .sta) :
    step s = .next (s.recordStep.store (operandAtPc s) s.ac).finishTwoByte :=
  (step_of_fetch_ok hr (State.fetch_of_sta hp hcls)).trans (twoByteForm_fits hp)

/-! ### Who writes memory -/

theorem dataEffect_mem_of_ne_sta {i : Instr} (s : State) (h : i.cls ≠ .sta) : (dataEffect i s).mem = s.mem := by
  cases i with
  | sta a => exact absurd rfl h
  | nop | not | shr | shl | ror | rol | hlt | unmappedA8 op | unmappedC0 op => rfl
  | lda a | add a | or a | and a | sub a => rfl
  | jmp a | jn a | jp a | jv a | jnv a | jz a | jnz a | jc a | jnc a | jb a | jnb a => rfl

/-- R51: an instruction keeps memory unless it is a STA whose operand exists. -/
theorem exec_mem_cases {i : Instr} {s t : State} (h : exec i s = .next t) :
    t.mem = s.mem ∨ (i.cls = .sta ∧ s.pc.toNat < 255) := by
  by_cases hcls : i.cls = .sta
  · obtain ⟨a, rfl⟩ := eq_sta_of_cls hcls
    rcases twoByteForm_cases h with ⟨hp, -⟩ | ⟨-, rfl⟩
    · exact .inr ⟨rfl, hp⟩
    · exact .inl rfl
  · rcases exec_data h with ht | ⟨-, ht⟩
    · exact .inl (ht.mem.trans (dataEffect_mem_of_ne_sta s hcls))
    · exact .inl ht.mem

/-- All that a step can do to memory: nothing, or the store of a STA. -/
theorem step_mem_cases {s t : State} (h : step s = .next t) :
    t.mem = s.mem ∨ (s.run = .run ∧ s.pc.toNat < 255 ∧ classAtPc s = .sta ∧
      t.mem = s.mem.write (operandAtPc s).toNat s.ac) := by
  rcases step_cases h with ⟨-, rfl⟩ | ⟨hr, i, hf, hexec⟩ | ⟨-, -, -, rfl⟩
  · exact .inl rfl
  · refine (exec_mem_cases hexec).imp_right fun ⟨hi, hp⟩ => ?_
    have hcls : classAtPc s = .sta := (State.cls_of_fetch (Nat.le_of_lt hp) hf).symm.trans hi
    cases (step_of_sta hr hp hcls).symm.trans h
    exact ⟨hr, hp, hcls, rfl⟩
  · exact .inl rfl

/-- Settles O31: a changed read rules out the step that keeps memory, and a write changes the read of its own
address alone. -/
theorem onlyStaWritesMemory : Obligations.OnlyStaWritesMemory := by
  intro s t k hwf hstep hne
  rcases step_mem_cases hstep with hmem | ⟨hr, hp, hcls, hmem⟩
  · exact absurd (by rw [hmem]) hne
  · have hread : t.mem.read k = if k = (operandAtPc s).toNat then s.ac else s.mem.read k := by
      rw [hmem, Memory.read_write hwf]
    by_cases hk : k = (operandAtPc s).toNat
    · exact ⟨hr, Nat.le_of_lt_succ hp, hcls, hk, hread.trans (if_pos hk)⟩
    · exact absurd (hread.trans (if_neg hk)) hne

/-! ### The record of a step -/

/-- R232: an instruction only appends to the trace. -/
theorem exec_appends_to_trace {i : Instr} {s t : State} (h : exec i s = .next t) :
    ∃ new, t.trace = s.trace ++ new := by
  cases i with
  | nop | not | shr | shl | ror | rol | hlt => cases h; exact ⟨[], (List.append_nil _).symm⟩
  | unmappedA8 op | unmappedC0 op => cases h; exact ⟨_, rfl⟩
  | sta a | lda a | add a | or a | and a | sub a
  | jmp a | jn a | jp a | jv a | jnv a | jz a | jnz a | jc a | jnc a | jb a | jnb a =>
    rcases twoByteForm_cases h with ⟨-, rfl⟩ | ⟨-, rfl⟩ <;> exact ⟨[], (List.append_nil _).symm⟩

theorem State.step_mem_recordStep (s : State) :
    (.step s.pc s.opcode (classAtPc s) : Event) ∈ s.recordStep.trace :=
  List.mem_append_right _ (List.mem_singleton_self _)

/-- R100, R232: a step of a running state records its PC, its opcode byte and its class. -/
theorem step_records {s t : State} (hr : s.run = .run) (h : step s = .next t) :
    (.step s.pc s.opcode (classAtPc s) : Event) ∈ t.trace := by
  rcases step_cases h with ⟨hterm, -⟩ | ⟨-, i, -, hexec⟩ | ⟨-, -, -, rfl⟩
  · exact absurd hr hterm
  · obtain ⟨new, hnew⟩ := exec_appends_to_trace hexec
    exact hnew ▸ List.mem_append_left new s.step_mem_recordStep
  · exact s.step_mem_recordStep

/-! ### Who halts -/

theorem State.goTo_run_ne_halted {s : State} (next : PcWord) (hr : s.run = .run) :
    (s.goTo next).run ≠ .halted := by
  by_cases h256 : next.toNat = 256
  · simp [runAfter_of_eq h256]
  · simp [runAfter_of_ne h256, hr]

theorem twoByteForm_goTo_ne_halted {s effect t : State} {next : PcWord}
    (h : twoByteForm s (effect.goTo next) = .next t) (hr : effect.run = .run) : t.run ≠ .halted := by
  rcases twoByteForm_cases h with ⟨-, rfl⟩ | ⟨-, rfl⟩
  · exact State.goTo_run_ne_halted next hr
  · simp

/-- R111: of all instructions HLT alone leads to HALTED. -/
theorem exec_halted_iff {i : Instr} {s t : State} (hr : s.run = .run) (h : exec i s = .next t) :
    t.run = .halted ↔ i.cls = .hlt := by
  cases i with
  | hlt => cases h; exact iff_of_true rfl rfl
  | nop | not | shr | shl | ror | rol | unmappedA8 op | unmappedC0 op =>
    cases h
    exact iff_of_false (State.goTo_run_ne_halted _ hr) nofun
  | sta a | lda a | add a | or a | and a | sub a
  | jmp a | jn a | jp a | jv a | jnv a | jz a | jnz a | jc a | jnc a | jb a | jnb a =>
    exact iff_of_false (twoByteForm_goTo_ne_halted h hr) nofun

/-- R104, R111: a step from an address halts exactly at a byte of HLT's class. -/
theorem step_halted_iff {s t : State} (hr : s.run = .run) (hp : s.pc.toNat ≤ 255) (h : step s = .next t) :
    t.run = .halted ↔ classAtPc s = .hlt := by
  rcases State.fetch_cases hp with ⟨i, hf, hcls, -⟩ | ⟨-, hlen, hf⟩
  · exact hcls ▸ exec_halted_iff (s := s.recordStep) hr ((step_of_fetch_ok hr hf).symm.trans h)
  · cases (step_of_missingOperand hr hf).symm.trans h
    refine iff_of_false nofun fun hhlt => ?_
    rw [hhlt] at hlen
    cases hlen

/-! ### The step after a STA -/

/-- R60, R130: a STA below 254 runs on at PC + 2, with AC at its operand's address. -/
theorem step_of_sta_runs_on {s : State} (hs : s.Running) (hp : s.pc.toNat ≤ 253) (hcls : classAtPc s = .sta) :
    ∃ t, step s = .next t ∧ t.Running ∧ t.pc.toNat = s.pc.toNat + 2 ∧
      t.mem.read (operandAtPc s).toNat = s.ac := by
  have hnext : (s.pcPlus 2).toNat = s.pc.toNat + 2 := s.pcPlus_toNat 2 (by omega)
  have hne : (s.pcPlus 2).toNat ≠ 256 := by omega
  refine ⟨_, step_of_sta hs.run (by omega) hcls, ⟨?_, ?_, ?_⟩, hnext, ?_⟩
  · exact (runAfter_of_ne hne).trans hs.run
  · exact hnext.trans_le (by omega)
  · exact Memory.write_wf hs.memory (operandAtPc s).isLt
  · exact (Memory.read_write hs.memory _ _ _).trans (if_pos rfl)

/-- Settles O32: the STA's step leaves AC at its operand's address; where that address is the next PC, the next
step has AC as its opcode, which it records and which alone decides whether it halts. -/
theorem storedCodeIsFetchedByTheNextStep : Obligations.StoredCodeIsFetchedByTheNextStep := by
  intro s hwf hr hp hcls
  obtain ⟨t, hstep, ht, hpc, hread⟩ := step_of_sta_runs_on ⟨hr, by omega, hwf⟩ hp hcls
  refine ⟨t, hstep, ht.run, hpc, hread, fun hnext => ?_⟩
  have hop : t.opcode = s.ac := by rw [State.opcode, hpc, ← hnext, hread]
  have hclst : classAtPc t = classify s.ac := congrArg classify hop
  obtain ⟨u, hu, -⟩ := step_goesOn ht.inv
  have hrecord := step_records ht.run hu
  have hhalt := step_halted_iff ht.run ht.pc hu
  rw [hop, hclst] at hrecord
  rw [hclst] at hhalt
  exact ⟨hclst, u, hu, hrecord, hhalt⟩

end Sys2Proof.Machine
end

section
/-! The statements of 30_encoding.md: the bands of the opcode byte (R73 to R80), the lengths (R71, R82, R83), and
that decode and encode agree (R70, R79, R80, R86). The band table carries them: the decoder puts every byte into
a row of its class, and no two rows meet. -/

namespace Sys2Proof.Machine

open Sys2Proof.Claims

/-! ### The bands -/

/-- The byte lies between the first and the last byte of a row of the band table. -/
abbrev InBand (row : OpClass × Nat × Nat × Nat) (op : Byte) : Prop :=
  row.2.1 ≤ op.toNat ∧ op.toNat ≤ row.2.2.1

/-- R79: the decoder ignores `op[1:0]`, so the four bytes from a multiple of 4 on have the class of the first. -/
theorem classify_eq_classify_block (op : Byte) : classify op = classify (BitVec.ofNat 8 (4 * (op.toNat / 4))) := by
  have hop := op.isLt
  have hfirst : (BitVec.ofNat 8 (4 * (op.toNat / 4))).toNat = 4 * (op.toNat / 4) := by
    rw [BitVec.toNat_ofNat]
    omega
  have hhi : 4 * (op.toNat / 4) / 16 = op.toNat / 16 := by omega
  have hq : 4 * (op.toNat / 4) / 4 % 4 = op.toNat / 4 % 4 := by omega
  simp only [classify, hfirst, hhi, hq]

/-- R74 to R78: each of these 64 blocks of four bytes lies in a row of its class. -/
theorem exists_band_of_block : ∀ k < 64, ∃ row ∈ bandTable,
    row.1 = classify (BitVec.ofNat 8 (4 * k)) ∧ row.2.1 ≤ 4 * k ∧ 4 * k + 3 ≤ row.2.2.1 := by decide

theorem exists_band_of_classify (op : Byte) : ∃ row ∈ bandTable, row.1 = classify op ∧ InBand row op := by
  have hop := op.isLt
  obtain ⟨row, hrow, hcls, hlo, hhi⟩ := exists_band_of_block (op.toNat / 4) (by omega)
  exact ⟨row, hrow, hcls.trans (classify_eq_classify_block op).symm, by omega, by omega⟩

theorem bandTable_disjoint : ∀ row ∈ bandTable, ∀ row' ∈ bandTable,
    row = row' ∨ row.2.2.1 < row'.2.1 ∨ row'.2.2.1 < row.2.1 := by decide

/-- R73: the bands do not overlap. -/
theorem band_unique {row row' : OpClass × Nat × Nat × Nat} {op : Byte} (hrow : row ∈ bandTable)
    (hrow' : row' ∈ bandTable) (hin : InBand row op) (hin' : InBand row' op) : row = row' := by
  have hdisj := bandTable_disjoint row hrow row' hrow'
  obtain ⟨hlo, hhi⟩ := hin
  obtain ⟨hlo', hhi'⟩ := hin'
  exact hdisj.resolve_right (by omega)

theorem classify_of_inBand {row : OpClass × Nat × Nat × Nat} {op : Byte} (hrow : row ∈ bandTable)
    (hin : InBand row op) : classify op = row.1 := by
  obtain ⟨row', hrow', hcls, hin'⟩ := exists_band_of_classify op
  rw [band_unique hrow hrow' hin hin', hcls]

theorem bandTable_length : ∀ row ∈ bandTable, row.1.length = row.2.2.2 := by decide

theorem bandTable_nodup : bandTable.Nodup := by decide

/-- Of the rows, the one of its class holds a byte, and no other does; so they are counted by counting that row. -/
theorem one_band_of_byte (op : Byte) : (bandTable.filter fun row => decide (InBand row op)).length = 1 := by
  obtain ⟨row, hrow, -, hin⟩ := exists_band_of_classify op
  have hrows : ∀ row' ∈ bandTable, decide (InBand row' op) = true ↔ (row' == row) = true := by
    intro row' hrow'
    rw [decide_eq_true_iff, beq_iff_eq]
    exact ⟨fun hin' => band_unique hrow' hrow hin' hin, fun heq => heq ▸ hin⟩
  calc (bandTable.filter fun row => decide (InBand row op)).length
      = bandTable.count row := List.countP_eq_length_filter.symm.trans (List.countP_congr hrows)
    _ = 1 := List.count_eq_one_of_mem bandTable_nodup hrow

/-! ### The unmapped bytes -/

theorem bandTable_unmapped : ∀ row ∈ bandTable, row.1 = .unmapped →
    row = (.unmapped, 0xA8, 0xAF, 1) ∨ row = (.unmapped, 0xC0, 0xDF, 1) := by decide

/-- R78: the bytes of no class's band. -/
theorem classify_eq_unmapped_iff (op : Byte) : classify op = .unmapped ↔
    (0xA8 ≤ op.toNat ∧ op.toNat ≤ 0xAF) ∨ (0xC0 ≤ op.toNat ∧ op.toNat ≤ 0xDF) := by
  constructor
  · intro h
    obtain ⟨row, hrow, hcls, hin⟩ := exists_band_of_classify op
    rcases bandTable_unmapped row hrow (hcls.trans h) with rfl | rfl
    · exact .inl hin
    · exact .inr hin
  · rintro (hA8 | hC0)
    · exact classify_of_inBand (row := (.unmapped, 0xA8, 0xAF, 1)) (by decide) hA8
    · exact classify_of_inBand (row := (.unmapped, 0xC0, 0xDF, 1)) (by decide) hC0

theorem decode_of_unmapped {op : Byte} (tl : List Byte) (h : classify op = .unmapped) :
    decode (op :: tl) = .ok (unmappedRow op, tl) := by
  simp only [decode, h]

theorem encode_unmappedRow (op : Byte) : encode (unmappedRow op) = [op] := by
  unfold unmappedRow
  split <;> rfl

theorem wellFormed_unmappedA8 (op : Byte) :
    (Instr.unmappedA8 op).wellFormed = true ↔ 0xA8 ≤ op.toNat ∧ op.toNat ≤ 0xAF := by
  simp [Instr.wellFormed]

theorem wellFormed_unmappedC0 (op : Byte) :
    (Instr.unmappedC0 op).wellFormed = true ↔ 0xC0 ≤ op.toNat ∧ op.toNat ≤ 0xDF := by
  simp [Instr.wellFormed]

theorem unmappedRow_wellFormed {op : Byte} (h : classify op = .unmapped) :
    (unmappedRow op).wellFormed = true := by
  have hrow := (classify_eq_unmapped_iff op).mp h
  unfold unmappedRow
  split
  next hlt => exact (wellFormed_unmappedA8 op).mpr (by omega)
  next hge => exact (wellFormed_unmappedC0 op).mpr (by omega)

/-! ### Decoding an encoding -/

/-- Settles O8, by the constructors: the base value of a class decodes to it, and a well-formed UNMAPPED term
carries a byte of the row that it stands for. -/
theorem decodeOfEncodeIsTheInstruction : Obligations.DecodeOfEncodeIsTheInstruction := by
  intro i rest hwf
  cases i with
  | nop | not | shr | shl | ror | rol | hlt => rfl
  | sta a | lda a | add a | or a | and a | sub a | jmp a => rfl
  | jn a | jp a | jv a | jnv a | jz a | jnz a | jc a | jnc a | jb a | jnb a => rfl
  | unmappedA8 op =>
    have hop := (wellFormed_unmappedA8 op).mp hwf
    have hrow : unmappedRow op = .unmappedA8 op := if_pos (by omega)
    exact (decode_of_unmapped rest ((classify_eq_unmapped_iff op).mpr (.inl hop))).trans (hrow ▸ rfl)
  | unmappedC0 op =>
    have hop := (wellFormed_unmappedC0 op).mp hwf
    have hrow : unmappedRow op = .unmappedC0 op := if_neg (by omega)
    exact (decode_of_unmapped rest ((classify_eq_unmapped_iff op).mpr (.inr hop))).trans (hrow ▸ rfl)

/-! ### Encoding what was decoded -/

theorem encode_length (i : Instr) : (encode i).length = i.cls.length := by
  cases i <;> rfl

/-- R71, R102: an instruction that is decoded has the class of its first byte, and what its encoding holds after
the first byte is what the decoder took from the bytes after it. -/
theorem cls_and_tail_of_decode {op : Byte} {tl rest : List Byte} {i : Instr}
    (h : decode (op :: tl) = .ok (i, rest)) : i.cls = classify op ∧ (encode i).tail ++ rest = tl := by
  rcases length_one_or_two (classify op) with hlen | hlen
  · obtain ⟨j, hj, hcls⟩ := decode_of_length_one tl hlen
    cases h.symm.trans hj
    have htail : (encode i).tail = [] := List.eq_nil_of_length_eq_zero (by simp [encode_length, hcls, hlen])
    exact ⟨hcls, by rw [htail, List.nil_append]⟩
  · cases tl with
    | nil => cases h.symm.trans (decode_missingOperand hlen)
    | cons a tl =>
      have htail := encode_tail_of_decode hlen h
      obtain ⟨j, hj, hcls⟩ := decode_of_length_two a tl hlen
      cases h.symm.trans hj
      exact ⟨hcls, by rw [htail, List.singleton_append]⟩

theorem wellFormed_of_mapped {i : Instr} (h : i.cls ≠ .unmapped) : i.wellFormed = true := by
  cases i with
  | unmappedA8 op | unmappedC0 op => exact absurd rfl h
  | _ => rfl

/-- The first byte of the class's first row in the band table: the base value of R86 for a mapped class. -/
def bandBase (cls : OpClass) : Byte := BitVec.ofNat 8 ((bandTable.lookup cls).elim 0 (·.1))

/-- A mapped class has one row, and its base value is where that row begins. -/
theorem bandBase_of_row : ∀ row ∈ bandTable, row.1 ≠ .unmapped → (bandBase row.1).toNat = row.2.1 := by decide

theorem bandTable_rows_nonempty : ∀ row ∈ bandTable, row.2.1 ≤ row.2.2.1 := by decide

/-- R80: what a mapped instruction is encoded to begins with the base value of its class. -/
theorem encode_of_mapped {i : Instr} (h : i.cls ≠ .unmapped) :
    encode i = bandBase i.cls :: (encode i).tail := by
  cases i with
  | unmappedA8 op | unmappedC0 op => exact absurd rfl h
  | _ => rfl

/-- R80: the base value of a mapped class is a byte of the class. -/
theorem classify_bandBase {op : Byte} (h : classify op ≠ .unmapped) :
    classify (bandBase (classify op)) = classify op := by
  obtain ⟨row, hrow, hcls, -⟩ := exists_band_of_classify op
  rw [← hcls] at h ⊢
  have hbase := bandBase_of_row row hrow h
  exact classify_of_inBand hrow ⟨hbase.ge, hbase.trans_le (bandTable_rows_nonempty row hrow)⟩

/-- R80: no byte of a mapped class is below the base value. -/
theorem bandBase_le {op : Byte} (h : classify op ≠ .unmapped) : (bandBase (classify op)).toNat ≤ op.toNat := by
  obtain ⟨row, hrow, hcls, hlo, -⟩ := exists_band_of_classify op
  rw [← hcls] at h ⊢
  exact (bandBase_of_row row hrow h).trans_le hlo

/-- Settles O9, by whether the first byte is mapped: the base value of its class is the canonical byte if it is,
and the byte itself, which its term carries, if it is not. -/
theorem decodedBytesEncodeToTheCanonicalForm : Obligations.DecodedBytesEncodeToTheCanonicalForm := by
  intro op tl i rest h
  obtain ⟨hcls, htail⟩ := cls_and_tail_of_decode h
  by_cases hop : classify op = .unmapped
  · cases h.symm.trans (decode_of_unmapped tl hop)
    refine ⟨unmappedRow_wellFormed hop, hcls, op, ?_, rfl, fun _ => rfl, fun hne => absurd hop hne⟩
    rw [encode_unmappedRow, List.singleton_append]
  · have hmapped : i.cls ≠ .unmapped := hcls ▸ hop
    refine ⟨wellFormed_of_mapped hmapped, hcls, bandBase (classify op), ?_, classify_bandBase hop,
      fun heq => absurd heq hop, fun _ op' heq => ?_⟩
    · rw [encode_of_mapped hmapped, hcls, List.cons_append, htail]
    · rw [← heq] at hop ⊢
      exact bandBase_le hop

/-! ### Lengths -/

theorem length_eq_one_iff (cls : OpClass) :
    cls.length = 1 ↔ cls ∈ [OpClass.nop, .not, .shr, .shl, .ror, .rol, .hlt, .unmapped] := by
  cases cls <;> decide

theorem length_eq_two_iff (cls : OpClass) :
    cls.length = 2 ↔ cls ∈ [OpClass.sta, .lda, .add, .or, .and, .sub, .jmp,
      .jn, .jp, .jv, .jnv, .jz, .jnz, .jc, .jnc, .jb, .jnb] := by
  cases cls <;> decide

/-- Settles O11, by the two lists of R71 and what the decoder does with a byte of each length. -/
theorem firstByteFixesLengthAndNothingIsIllegal : Obligations.FirstByteFixesLengthAndNothingIsIllegal :=
  ⟨length_eq_one_iff, length_eq_two_iff, fun _ tl h => decode_of_length_one tl h,
    fun _ a tl h => decode_of_length_two a tl h, fun _ h => decode_missingOperand h⟩

/-! ### The band table and words of it -/

/-- Settles O10, by the band in which the decoder puts a byte, and that no other band holds it. -/
theorem everyByteHasTheClassOfItsBand : Obligations.EveryByteHasTheClassOfItsBand :=
  ⟨fun _ row hrow hin => ⟨classify_of_inBand hrow hin, bandTable_length row hrow⟩, one_band_of_byte⟩

/-- Settles O12, by running the decoder on each of the eight words. -/
theorem writtenOutWordsDecode : Obligations.WrittenOutWordsDecode :=
  ⟨rfl, rfl, rfl, rfl, rfl, rfl, rfl, rfl⟩

end Sys2Proof.Machine
end

section
/-! The statements of 40_sequencer.md: a step runs what the bytes at PC decode to (R100 to R103), the three stops
(R104, R106, R108, R113), NOP, HLT and the unmapped bytes (R110 to R112), and the runs of R115 and R116. -/

namespace Sys2Proof.Machine

open Sys2Proof.Claims

/-! ### Fetching what decodes -/

/-- R103: a one-byte class does not look at the bytes after it. -/
theorem decode_of_other_tail {op : Byte} {tl rest : List Byte} {i : Instr} (tl' : List Byte)
    (hlen : (classify op).length = 1) (h : decode (op :: tl) = .ok (i, rest)) :
    decode (op :: tl') = .ok (i, tl') := by
  simp only [decode] at h ⊢
  generalize classify op = cls at h hlen
  cases cls with
  | nop | not | shr | shl | ror | rol | hlt | unmapped => cases h; rfl
  | sta | lda | add | or | and | sub | jmp | jn | jp | jv | jnv | jz | jnz | jc | jnc | jb | jnb => cases hlen

/-- R101 to R103: the fetch gives what the opcode byte and the byte after it, if there is one, decode to. -/
theorem State.fetch_of_decode {s : State} {i : Instr} {rest : List Byte} (hp : s.pc.toNat ≤ 255)
    (h : decode (s.opcode :: s.operandBytes) = .ok (i, rest)) : s.fetch = .ok i := by
  rcases length_one_or_two (classify s.opcode) with hlen | hlen
  · exact fetch_ok ((congrArg decode (fetchBytes_of_length_one hp hlen)).trans (decode_of_other_tail [] hlen h))
  · exact fetch_ok ((congrArg decode (fetchBytes_of_length_two hp hlen)).trans h)

/-- Settles O13: in both cases the bytes are those at PC that exist, so the fetch gives the instruction. -/
theorem stepRunsTheDecodedInstruction : Obligations.StepRunsTheDecodedInstruction := by
  intro s i rest hr hbytes
  have hdec : s.pc.toNat ≤ 255 ∧ decode (s.opcode :: s.operandBytes) = .ok (i, rest) := by
    rcases hbytes with ⟨hp, h⟩ | ⟨hpc, h⟩
    · rw [State.operandBytes, if_pos (by omega)]
      exact ⟨by omega, h⟩
    · simpa [State.opcode, State.operandBytes, hpc] using h
  obtain ⟨hp, h⟩ := hdec
  exact ⟨(decodedBytesEncodeToTheCanonicalForm _ _ _ _ h).1, step_of_fetch_ok hr (State.fetch_of_decode hp h)⟩

/-! ### The stops -/

theorem not_fits_of_length_two_at_255 {i : Instr} {s : State} (hlen : i.cls.length = 2) (hpc : s.pc = 255) :
    ¬ Fits i s := by
  rw [Fits, hlen, hpc]
  decide

/-- R104: the operand of a two-byte class at 255 is missing. -/
theorem State.fetch_of_length_two_at_255 {s : State} (hpc : s.pc = 255) (hlen : (classAtPc s).length = 2) :
    s.fetch = .error (.missingOperand (classAtPc s)) := by
  rcases fetch_cases (s := s) (by rw [hpc]; decide) with ⟨i, -, hcls, hfit⟩ | ⟨-, -, hf⟩
  · exact absurd hfit (not_fits_of_length_two_at_255 (hcls ▸ hlen) hpc)
  · exact hf

/-- Settles O15: the first step misses the operand, and the OPFAULT it enters is terminal. -/
theorem twoByteOpcodeAtTheLastAddressEntersOpfault :
    Obligations.TwoByteOpcodeAtTheLastAddressEntersOpfault := by
  intro s k hr hpc hlen
  have hstep := step_of_missingOperand hr (State.fetch_of_length_two_at_255 hpc hlen)
  have hop : s.opcode = s.mem.read 255 := congrArg s.mem.read (congrArg BitVec.toNat hpc)
  rw [steps_succ_of_step k hstep, terminalStatesAreNeverLeft s.recordStep.enterOpFault k nofun, ← hop, ← hpc]
  rfl

theorem runAfter_run_eq_offend_iff (next : PcWord) : runAfter .run next = .offend ↔ next = 256 := by
  by_cases h256 : next.toNat = 256
  · exact iff_of_true (runAfter_of_eq h256) (BitVec.eq_of_toNat_eq h256)
  · rw [runAfter_of_ne h256]
    exact iff_of_false nofun fun h => h256 (congrArg BitVec.toNat h)

theorem runAfter_run_ne_opfault (next : PcWord) : runAfter .run next ≠ .opfault := by
  unfold runAfter
  split <;> nofun

theorem twoByteForm_goTo_run {s effect t : State} {next : PcWord} (hfit : s.pc.toNat < 255)
    (h : twoByteForm s (effect.goTo next) = .next t) (hr : effect.run = s.run) :
    t.run = runAfter s.run t.pc := by
  rw [twoByteForm_fits hfit] at h
  cases h
  exact congrArg (runAfter · next) hr

/-- R100: what an instruction whose bytes exist makes of State. HLT halts; for any other the next PC alone
decides. -/
theorem exec_run_of_fits {i : Instr} {s t : State} (hfit : Fits i s) (h : exec i s = .next t) :
    (i.cls = .hlt ∧ t.run = .halted) ∨ (i.cls ≠ .hlt ∧ t.run = runAfter s.run t.pc) := by
  have hlt : i.cls.length = 2 → s.pc.toNat < 255 := by unfold Fits at hfit; omega
  cases i with
  | hlt => cases h; exact .inl ⟨rfl, rfl⟩
  | nop | not | shr | shl | ror | rol | unmappedA8 op | unmappedC0 op => cases h; exact .inr ⟨nofun, rfl⟩
  | sta a | lda a | add a | or a | and a | sub a
  | jmp a | jn a | jp a | jv a | jnv a | jz a | jnz a | jc a | jnc a | jb a | jnb a =>
    exact .inr ⟨nofun, twoByteForm_goTo_run (hlt rfl) h rfl⟩

/-- Settles O18, by what the fetch gives: an instruction whose bytes exist never enters OPFAULT, and the missing
operand at 255 enters nothing else. HALTED is `step_halted_iff`. -/
theorem stepStopsExactlyAsTheSequencerSays : Obligations.StepStopsExactlyAsTheSequencerSays := by
  intro s hr hp
  rcases State.fetch_cases hp with ⟨i, hf, hcls, hfit⟩ | ⟨hpc, hlen, hf⟩
  · obtain ⟨t, ht⟩ := exec_answers i s.recordStep
    have hstep := (step_of_fetch_ok hr hf).trans ht
    have hhalted := step_halted_iff hr hp hstep
    have hnot255 : ¬ ((classAtPc s).length = 2 ∧ s.pc = 255) := fun ⟨hlen, hpc⟩ =>
      not_fits_of_length_two_at_255 (hcls ▸ hlen) hpc hfit
    rcases exec_run_of_fits (s := s.recordStep) hfit ht with ⟨hi, hrun⟩ | ⟨hi, hrun⟩
    · rw [hcls] at hi
      refine ⟨t, hstep, iff_of_false ?_ hnot255, hhalted, iff_of_false ?_ fun h => h.2 hi⟩ <;> simp [hrun]
    · rw [hcls] at hi
      rw [State.recordStep_run, hr] at hrun
      refine ⟨t, hstep, iff_of_false ?_ hnot255, hhalted, ?_⟩
      · exact hrun ▸ runAfter_run_ne_opfault t.pc
      · exact hrun ▸ (runAfter_run_eq_offend_iff t.pc).trans (and_iff_left hi).symm
  · have hstep := step_of_missingOperand hr hf
    refine ⟨_, hstep, iff_of_true rfl ⟨hlen, hpc⟩, step_halted_iff hr hp hstep, iff_of_false nofun ?_⟩
    rw [State.enterOpFault_pc, State.recordStep_pc, hpc]
    exact fun h => absurd h.1 (by decide)

/-! ### The advance past a one-byte form -/

theorem pastOneByte_of_last {s : State} (hpc : s.pc = 255) :
    pastOneByte s = { s with pc := 256, run := .offend } := by
  simp [pastOneByte, hpc]

theorem pastOneByte_of_lt {s : State} (hp : s.pc.toNat < 255) : pastOneByte s = { s with pc := s.pc + 1 } := by
  have hne : s.pc ≠ 255 := fun hpc => by rw [hpc] at hp; exact absurd hp (by decide)
  rw [pastOneByte, if_neg hne]

/-- R106: from an address, the end of a one-byte form is the advance that reaches 256 only from 255. -/
theorem State.finishOneByte_eq {s : State} (hp : s.pc.toNat ≤ 255) : s.finishOneByte = pastOneByte s := by
  have hnext : (s.pcPlus 1).toNat = s.pc.toNat + 1 := s.pcPlus_toNat 1 (by omega)
  have h256 : (s.pcPlus 1).toNat = 256 ↔ s.pc = 255 := by
    rw [hnext, ← BitVec.toNat_inj]
    exact Nat.add_right_cancel_iff
  have hrun : runAfter s.run (s.pcPlus 1) = if s.pc = 255 then .offend else s.run := by
    simp only [runAfter, h256]
  rw [finishOneByte, goTo, hrun, pcPlus_eq]
  rfl

theorem oneByteForm_eq_past {effect : State} (hp : effect.pc.toNat ≤ 255) :
    oneByteForm effect = .next (pastOneByte effect) :=
  congrArg Host.Outcome.next (State.finishOneByte_eq hp)

/-! ### NOP, HLT and the unmapped bytes -/

/-- Settles O23: bytes 0 to 15 are NOP's band, and NOP is a one-byte form without an effect. -/
theorem nopOnlyAdvances : Obligations.NopOnlyAdvances := by
  refine ⟨fun op rest hlo hhi => ?_, fun s hp => oneByteForm_eq_past hp⟩
  have hcls : classify op = .nop := classify_of_inBand (row := (.nop, 0, 15, 1)) (by decide) ⟨hlo, hhi⟩
  simp only [decode, hcls]

/-- Settles O24: bytes 240 to 255 are HLT's band, and HLT's stop does not ask whether the next PC is 256. -/
theorem hltHalts : Obligations.HltHalts := by
  refine ⟨fun op rest hlo hhi => ?_, fun s _ => ?_⟩
  · have hcls : classify op = .hlt := classify_of_inBand (row := (.hlt, 240, 255, 1)) (by decide) ⟨hlo, hhi⟩
    simp only [decode, hcls]
  · calc exec .hlt s = .next s.halt := rfl
      _ = .next { s with pc := s.pc + 1, run := .halted } := by rw [State.halt, State.pcPlus_eq]; rfl

/-- R112: the two rows of unmapped bytes have one meaning. -/
theorem exec_unmappedRow (op : Byte) (s : State) :
    exec (unmappedRow op) s = oneByteForm (s.emit (.unmapped s.pc op)) := by
  unfold unmappedRow
  split <;> rfl

/-- R112, R233: an unmapped byte, and no other, is the encoding of its term, a one-byte form that is logged. -/
theorem unmappedRow_rule {op : Byte} (h : classify op = .unmapped) :
    OneByteRule (unmappedRow op) op.toNat op.toNat fun s =>
      pastOneByte { s with trace := s.trace ++ [.unmapped s.pc op] } := by
  refine ⟨fun op' rest hlo hhi => ?_, fun s hp => ?_⟩
  · obtain rfl : op = op' := BitVec.eq_of_toNat_eq (le_antisymm hlo hhi)
    exact decode_of_unmapped rest h
  · rw [exec_unmappedRow]
    exact oneByteForm_eq_past hp

/-- Settles O25, by the two rows of R78. -/
theorem unmappedBytesAreLoggedNoOps : Obligations.UnmappedBytesAreLoggedNoOps := by
  refine ⟨fun op hlo hhi => ?_, fun op hlo hhi => ?_⟩
  · have hrow : unmappedRow op = .unmappedA8 op := if_pos (by omega)
    exact hrow ▸ unmappedRow_rule ((classify_eq_unmapped_iff op).mpr (.inl ⟨hlo, hhi⟩))
  · have hrow : unmappedRow op = .unmappedC0 op := if_neg (by omega)
    exact hrow ▸ unmappedRow_rule ((classify_eq_unmapped_iff op).mpr (.inr ⟨hlo, hhi⟩))

/-! ### Running off the end -/

theorem eq_nop_of_cls {i : Instr} (h : i.cls = .nop) : i = .nop := by
  cases i with
  | nop => rfl
  | not | shr | shl | ror | rol | hlt | unmappedA8 op | unmappedC0 op => cases h
  | sta a | lda a | add a | or a | and a | sub a => cases h
  | jmp a | jn a | jp a | jv a | jnv a | jz a | jnz a | jc a | jnc a | jb a | jnb a => cases h

/-- R110: the step of a NOP. -/
theorem step_of_nop {s : State} (hr : s.run = .run) (hp : s.pc.toNat ≤ 255) (hcls : classAtPc s = .nop) :
    step s = .next (pastOneByte s.recordStep) := by
  rcases State.fetch_cases hp with ⟨i, hf, hi, -⟩ | ⟨-, hlen, -⟩
  · obtain rfl : i = .nop := eq_nop_of_cls (hi.trans hcls)
    exact (step_of_fetch_ok hr hf).trans (nopOnlyAdvances.2 s.recordStep hp)
  · rw [hcls] at hlen
    cases hlen

/-- R116: `n + 1` NOPs that end at address 255 run off the end. -/
theorem steps_of_nops (n : Nat) : ∀ s : State, s.run = .run → s.pc.toNat + n = 255 →
    (∀ k, s.pc.toNat ≤ k → k ≤ 255 → classify (s.mem.read k) = .nop) →
    ∃ tr, steps (n + 1) s = .next { s with pc := 256, run := .offend, trace := tr } := by
  induction n with
  | zero =>
    intro s hr hend hnops
    have hpc : s.pc = 255 := BitVec.eq_of_toNat_eq hend
    have hstep := step_of_nop hr hend.le (hnops _ le_rfl hend.le)
    rw [pastOneByte_of_last (s := s.recordStep) hpc] at hstep
    exact ⟨_, steps_succ_of_step 0 hstep⟩
  | succ n ih =>
    intro s hr hend hnops
    have hstep := step_of_nop hr (by omega) (hnops _ le_rfl (by omega))
    rw [pastOneByte_of_lt (s := s.recordStep) (show s.pc.toNat < 255 by omega)] at hstep
    have hnext : (s.pc + 1).toNat = s.pc.toNat + 1 :=
      (congrArg BitVec.toNat (s.pcPlus_eq 1)).symm.trans (s.pcPlus_toNat 1 (by omega))
    obtain ⟨tr, htr⟩ := ih { s.recordStep with pc := s.pc + 1 } hr
      (show (s.pc + 1).toNat + n = 255 by omega)
      fun k (hk : (s.pc + 1).toNat ≤ k) => hnops k (by omega)
    exact ⟨tr, (steps_succ_of_step (n + 1) hstep).trans htr⟩

/-- Settles O26, by induction on the number of NOPs (`steps_of_nops`). -/
theorem nopsToTheEndRunOff : Obligations.NopsToTheEndRunOff := by
  intro s hr hp hnops
  rw [show 256 - s.pc.toNat = (255 - s.pc.toNat) + 1 by omega]
  exact steps_of_nops (255 - s.pc.toNat) s hr (by omega) hnops

/-! ### A jump to itself -/

theorem length_of_jumpTaken {s : State} {cls : OpClass} {x : Bool} (h : jumpTaken s cls = some x) :
    cls.length = 2 := by
  cases cls with
  | jmp | jn | jp | jv | jnv | jz | jnz | jc | jnc | jb | jnb => rfl
  | nop | sta | lda | add | or | and | not | sub | shr | shl | ror | rol | hlt | unmapped => cases h

theorem jumpIf_of_taken {cond : Bool} {a : Byte} {s : State} (hfit : s.pc.toNat < 255)
    (h : some cond = some true) : jumpIf cond a s = .next { s with pc := jumpTarget a } := by
  cases h
  calc jumpIf true a s = .next (s.goTo (jumpTarget a)) := twoByteForm_fits hfit
    _ = .next { s with pc := jumpTarget a } := by rw [State.goTo, runAfter_jumpTarget]

/-- R170, R171: a taken jump, JMP or conditional, goes to its operand and changes nothing else. -/
theorem exec_of_taken {i : Instr} {a : Byte} {s : State} (htaken : jumpTaken s i.cls = some true)
    (ha : (encode i).tail = [a]) (hfit : s.pc.toNat < 255) :
    exec i s = .next { s with pc := jumpTarget a } := by
  cases i with
  | jmp b | jn b | jp b | jv b | jnv b | jz b | jnz b | jc b | jnc b | jb b | jnb b =>
    cases ha
    exact jumpIf_of_taken hfit htaken
  | nop | not | shr | shl | ror | rol | hlt | unmappedA8 op | unmappedC0 op => cases htaken
  | sta b | lda b | add b | or b | and b | sub b => cases htaken

/-- R115: the step of a taken jump to its own address only records itself. -/
theorem step_of_jump_to_itself {s : State} (hr : s.run = .run) (hp : s.pc.toNat < 255)
    (htaken : jumpTaken s (classAtPc s) = some true) (hself : (operandAtPc s).toNat = s.pc.toNat) :
    step s = .next s.recordStep := by
  rcases State.fetch_cases hp.le with ⟨i, hf, hi, -⟩ | ⟨hpc, -, -⟩
  · have ha := State.encode_tail_of_fetch hp (length_of_jumpTaken htaken) hf
    have htarget : jumpTarget (operandAtPc s) = s.pc :=
      BitVec.eq_of_toNat_eq ((jumpTarget_toNat _).trans hself)
    have hexec : exec i s.recordStep = .next { s.recordStep with pc := jumpTarget (operandAtPc s) } :=
      exec_of_taken (hi ▸ htaken) ha hp
    rw [step_of_fetch_ok hr hf, hexec, htarget]
    rfl
  · rw [hpc] at hp
    exact absurd hp (by decide)

/-- Settles O27, by induction on the number of steps: each records itself and leaves the same jump at the same
PC. -/
theorem jumpToItselfNeverEnds : Obligations.JumpToItselfNeverEnds := by
  intro s k hr hp htaken hself
  induction k generalizing s with
  | zero => simp [steps]
  | succ k ih =>
    rw [steps_succ_of_step k (step_of_jump_to_itself hr (by omega) htaken hself),
      ih s.recordStep hr hp htaken hself, List.replicate_succ, State.recordStep_trace, List.append_assoc]
    rfl

end Sys2Proof.Machine
end

section
/-! The statements of 41_load_store.md: STA (R130), LDA (R131), and the pair that copies a byte (R132). Before
them, what a two-byte form does at each address, and the rule it gives an instruction. -/

namespace Sys2Proof.Machine

open Sys2Proof.Claims

/-! ### The advance past a two-byte form -/

theorem pastTwoBytes_pc_toNat {s : State} (hp : s.pc.toNat ≤ 254) :
    (pastTwoBytes s).pc.toNat = s.pc.toNat + 2 := by
  calc (pastTwoBytes s).pc.toNat = (s.pcPlus 2).toNat := congrArg BitVec.toNat (s.pcPlus_eq 2).symm
    _ = s.pc.toNat + 2 := s.pcPlus_toNat 2 (by omega)

/-- R106: the end of a two-byte form whose bytes exist is the advance that reaches 256 only from 254. -/
theorem State.finishTwoByte_eq {s : State} (hp : s.pc.toNat ≤ 254) : s.finishTwoByte = pastTwoBytes s := by
  have h256 : (s.pcPlus 2).toNat = 256 ↔ s.pc = 254 := by
    rw [s.pcPlus_toNat 2 (by omega), ← BitVec.toNat_inj]
    exact Nat.add_right_cancel_iff
  have hrun : runAfter s.run (s.pcPlus 2) = if s.pc = 254 then .offend else s.run := by
    simp only [runAfter, h256]
  rw [finishTwoByte, goTo, hrun, pcPlus_eq]
  rfl

/-! ### The rule of a two-byte form -/

/-- R104: at 255 a two-byte form ends in OPFAULT before any effect. -/
theorem twoByteForm_at_255 {s after : State} (hpc : s.pc = 255) :
    twoByteForm s after = .next { s with run := .opfault } :=
  twoByteForm_off_end (by rw [hpc]; decide)

/-- An instruction whose class has the band from `lo` to `hi`, and whose meaning is a two-byte form, has the
two-byte rule of what the form leads to where its operand exists. -/
theorem twoByteRule_of_form {mk : Byte → Instr} {cls : OpClass} {lo hi : Nat}
    {effect after : Byte → State → State}
    (hband : (cls, lo, hi, 2) ∈ bandTable)
    (hdecode : ∀ (op a : Byte) (rest : List Byte), classify op = cls → decode (op :: a :: rest) = .ok (mk a, rest))
    (hexec : ∀ (a : Byte) (s : State), exec (mk a) s = twoByteForm s (after a s))
    (heffect : ∀ (a : Byte) (s : State), s.pc.toNat ≤ 254 → after a s = effect a s) :
    TwoByteRule mk lo hi effect := by
  refine ⟨fun op a rest hlo hhi => ?_, fun a s hp => ?_, fun a s hpc => ?_⟩
  · exact hdecode op a rest (classify_of_inBand hband ⟨hlo, hhi⟩)
  · rw [hexec, twoByteForm_fits (Nat.lt_succ_of_le hp), heffect a s hp]
  · rw [hexec, twoByteForm_at_255 hpc]

/-! ### STA and LDA -/

/-- R130: STA's rule with the memory it writes. -/
theorem sta_rule : TwoByteRule .sta 16 31 fun a s => pastTwoBytes { s with mem := s.mem.write a.toNat s.ac } :=
  twoByteRule_of_form (cls := .sta) (by decide)
    (fun op a rest hcls => by simp only [decode, hcls, takeOperand])
    (fun _ _ => rfl)
    (fun a s hp => State.finishTwoByte_eq (s := s.store a s.ac) hp)

/-- Settles O28: by STA's rule the memory written is the one witness; it is canonical, and `Memory.read_write`
says what it reads. -/
theorem staStoresTheAccumulator : Obligations.StaStoresTheAccumulator := by
  obtain ⟨hdecode, hexec, hfault⟩ := sta_rule
  refine ⟨hdecode, fun a s hwf hp => ?_, hfault⟩
  exact ⟨s.mem.write a.toNat s.ac, hexec a s hp, Memory.write_wf hwf a.isLt,
    Memory.read_write hwf a.toNat s.ac⟩

/-- R141: AC with its N and Z, in numbers. -/
theorem State.setAcNZ_eq (s : State) (r : Byte) :
    s.setAcNZ r = { s with ac := r, n := decide (128 ≤ r.toNat), z := decide (r.toNat = 0) } := by
  rw [← bit7_eq, ← isZero_eq]
  rfl

/-- R131: LDA's rule with the AC, N and Z it sets. -/
theorem lda_rule : TwoByteRule .lda 32 47 fun a s => pastTwoBytes (s.setAcNZ (dataOperand a s)) :=
  twoByteRule_of_form (cls := .lda) (by decide)
    (fun op a rest hcls => by simp only [decode, hcls, takeOperand])
    (fun _ _ => rfl)
    (fun a s hp => State.finishTwoByte_eq (s := s.setAcNZ (dataOperand a s)) hp)

/-- Settles O29: LDA's rule, with N and Z in numbers. -/
theorem ldaLoadsTheAccumulator : Obligations.LdaLoadsTheAccumulator := by
  have hrule := lda_rule
  simp only [State.setAcNZ_eq] at hrule
  exact hrule

/-! ### Copying a byte -/

theorem execAll_cons_of_next {i : Instr} {is : List Instr} {s t : State} (h : exec i s = .next t) :
    execAll (i :: is) s = execAll is t := by
  simp only [execAll, h]

/-- Settles O30: LDA's rule, then what O28 says of STA two bytes on, where AC holds the byte at `x` and memory is
still the one before the pair. -/
theorem ldaThenStaCopiesAByte : Obligations.LdaThenStaCopiesAByte := by
  intro x y s hwf hp
  obtain ⟨-, hlda, -⟩ := lda_rule
  obtain ⟨-, hsta, -⟩ := staStoresTheAccumulator
  have hload := hlda x s (by omega)
  have hpc := pastTwoBytes_pc_toNat (s := s.setAcNZ (dataOperand x s)) (show s.pc.toNat ≤ 254 by omega)
  rw [State.setAcNZ_pc] at hpc
  obtain ⟨m, hstore, -, hread⟩ := hsta y (pastTwoBytes (s.setAcNZ (dataOperand x s))) hwf (by omega)
  have hend := (pastTwoBytes_pc_toNat (hpc.trans_le (by omega))).trans (congrArg (· + 2) hpc)
  exact ⟨_, (execAll_cons_of_next hload).trans (execAll_cons_of_next hstore), hread, rfl, bit7_eq _, rfl, rfl, rfl,
    rfl, hend⟩

end Sys2Proof.Machine
end

section
/-! The statements of 42_alu.md: the rules of ADD, OR, AND, NOT and SUB (R143 to R147), and what their results and
flags mean in the unsigned and the signed readings (R141, R148 to R150). Before them, each flag as a number. -/

namespace Sys2Proof.Machine

open Sys2Proof.Claims

/-! ### The signed reading -/

/-- R9: the two halves of the signed reading. -/
theorem s8_cases (x : Byte) :
    (x.toNat < 128 ∧ s8 x = x.toNat) ∨ (128 ≤ x.toNat ∧ x.toNat < 256 ∧ s8 x = (x.toNat : Int) - 256) := by
  unfold s8
  split
  · exact .inl ⟨‹_›, rfl⟩
  · exact .inr ⟨by omega, x.isLt, rfl⟩

/-- R9: the signed and the unsigned reading are congruent mod 256. -/
theorem s8_emod (x : Byte) : s8 x % 256 = x.toNat := by
  rcases s8_cases x with ⟨_, hs⟩ | ⟨_, _, hs⟩ <;> omega

/-! ### The results and flags of ADD -/

/-- R143: V of ADD, the sign bits as numbers. -/
theorem addOverflow_eq (x y : Byte) : addOverflow x y = decide ((128 ≤ x.toNat ↔ 128 ≤ y.toNat) ∧
    ¬ (128 ≤ (x.toNat + y.toNat) % 256 ↔ 128 ≤ x.toNat)) := by
  rw [Bool.eq_iff_iff]
  simp [addOverflow, bit7_eq, addResult_toNat]

/-- R150: bit 8 of a sum of two bytes says whether it is above 255. -/
theorem addCarry_eq_true_iff (x y : Byte) : addCarry x y = true ↔ 256 ≤ x.toNat + y.toNat := by
  have hx := x.isLt
  have hy := y.isLt
  rw [addCarry, addSum, Nat.testBit_eq_decide_div_mod_eq, decide_eq_true_iff]
  omega

theorem addCarry_eq (x y : Byte) : addCarry x y = decide ((x.toNat + y.toNat) / 256 = 1) := by
  have hx := x.isLt
  have hy := y.isLt
  rw [Bool.eq_iff_iff, addCarry_eq_true_iff, decide_eq_true_iff]
  omega

/-- R149: alike signs whose result has the other sign are exactly the signed sums out of range. -/
theorem addOverflow_eq_true_iff (x y : Byte) :
    addOverflow x y = true ↔ s8 x + s8 y < -128 ∨ 127 < s8 x + s8 y := by
  rw [addOverflow_eq, decide_eq_true_iff]
  rcases s8_cases x with ⟨_, hx⟩ | ⟨_, _, hx⟩ <;> rcases s8_cases y with ⟨_, hy⟩ | ⟨_, _, hy⟩ <;> omega

theorem s8_addResult_emod (x y : Byte) : (s8 (addResult x y) - (s8 x + s8 y)) % 256 = 0 := by
  have hr := s8_emod (addResult x y)
  have hx := s8_emod x
  have hy := s8_emod y
  rw [addResult_toNat] at hr
  omega

/-! ### The results and flags of SUB -/

/-- R147: V of SUB, the sign bits as numbers. -/
theorem subOverflow_eq (x y : Byte) : subOverflow x y = decide (¬ (128 ≤ x.toNat ↔ 128 ≤ y.toNat) ∧
    ¬ (128 ≤ (x.toNat + 256 - y.toNat) % 256 ↔ 128 ≤ x.toNat)) := by
  rw [Bool.eq_iff_iff]
  simp [subOverflow, bit7_eq, subResult_toNat]

/-- R150: the unmasked difference is negative exactly below the operand. -/
theorem subBorrow_eq (x y : Byte) : subBorrow x y = decide (x.toNat < y.toNat) :=
  decide_eq_decide.mpr (by rw [subDiff]; omega)

/-- R150: no borrow is the carry out of `x + ~y + 1`. -/
theorem subBorrow_eq_false_iff (x y : Byte) : subBorrow x y = false ↔ 256 ≤ x.toNat + (~~~y).toNat + 1 := by
  have hy := y.isLt
  rw [subBorrow_eq, decide_eq_false_iff_not, BitVec.toNat_not]
  omega

/-- R149: unlike signs whose result leaves the first one's sign are exactly the signed differences out of range. -/
theorem subOverflow_eq_true_iff (x y : Byte) :
    subOverflow x y = true ↔ s8 x - s8 y < -128 ∨ 127 < s8 x - s8 y := by
  rw [subOverflow_eq, decide_eq_true_iff]
  rcases s8_cases x with ⟨_, hx⟩ | ⟨_, _, hx⟩ <;> rcases s8_cases y with ⟨_, hy⟩ | ⟨_, _, hy⟩ <;> omega

theorem subResult_toNat_emod (x y : Byte) : ((subResult x y).toNat : Int) = ((x.toNat : Int) - y.toNat) % 256 := by
  have hy := y.isLt
  rw [subResult_toNat]
  omega

theorem s8_subResult_emod (x y : Byte) : (s8 (subResult x y) - (s8 x - s8 y)) % 256 = 0 := by
  have hr := s8_emod (subResult x y)
  have hx := s8_emod x
  have hy := s8_emod y
  rw [subResult_toNat_emod] at hr
  omega

/-! ### The rules of the two-byte forms -/

/-- A two-byte form that ends by advancing has the two-byte rule of its effect on the data. -/
theorem twoByteRule_of_dataEffect {mk : Byte → Instr} {cls : OpClass} {lo hi : Nat}
    (hband : (cls, lo, hi, 2) ∈ bandTable)
    (hdecode : ∀ (op a : Byte) (rest : List Byte), classify op = cls → decode (op :: a :: rest) = .ok (mk a, rest))
    (hexec : ∀ (a : Byte) (s : State), exec (mk a) s = twoByteForm s (dataEffect (mk a) s).finishTwoByte)
    (hpc : ∀ (a : Byte) (s : State), (dataEffect (mk a) s).pc = s.pc) :
    TwoByteRule mk lo hi fun a s => pastTwoBytes (dataEffect (mk a) s) :=
  twoByteRule_of_form hband hdecode hexec fun a s hp => State.finishTwoByte_eq ((hpc a s).symm ▸ hp)

theorem add_rule : TwoByteRule .add 48 63 fun a s => pastTwoBytes (dataEffect (.add a) s) :=
  twoByteRule_of_dataEffect (cls := .add) (by decide)
    (fun op a rest hcls => by simp only [decode, hcls, takeOperand]) (fun _ _ => rfl) (fun _ _ => rfl)

theorem or_rule : TwoByteRule .or 64 79 fun a s => pastTwoBytes (dataEffect (.or a) s) :=
  twoByteRule_of_dataEffect (cls := .or) (by decide)
    (fun op a rest hcls => by simp only [decode, hcls, takeOperand]) (fun _ _ => rfl) (fun _ _ => rfl)

theorem and_rule : TwoByteRule .and 80 95 fun a s => pastTwoBytes (dataEffect (.and a) s) :=
  twoByteRule_of_dataEffect (cls := .and) (by decide)
    (fun op a rest hcls => by simp only [decode, hcls, takeOperand]) (fun _ _ => rfl) (fun _ _ => rfl)

theorem sub_rule : TwoByteRule .sub 112 127 fun a s => pastTwoBytes (dataEffect (.sub a) s) :=
  twoByteRule_of_dataEffect (cls := .sub) (by decide)
    (fun op a rest hcls => by simp only [decode, hcls, takeOperand]) (fun _ _ => rfl) (fun _ _ => rfl)

/-! ### What the results and flags mean -/

/-- Settles O37: by the rules of ADD and SUB the new V is `addOverflow` and `subOverflow`. -/
theorem overflowIsSignedOverflow : Obligations.OverflowIsSignedOverflow := by
  obtain ⟨-, hadd, -⟩ := add_rule
  obtain ⟨-, hsub, -⟩ := sub_rule
  exact fun a s hp =>
    ⟨⟨_, hadd a s hp, addOverflow_eq_true_iff s.ac _⟩, ⟨_, hsub a s hp, subOverflow_eq_true_iff s.ac _⟩⟩

/-- Settles O38: by the rules of ADD and SUB the new C is `addCarry` and the new B `subBorrow`. -/
theorem carryAndBorrowAreUnsigned : Obligations.CarryAndBorrowAreUnsigned := by
  obtain ⟨-, hadd, -⟩ := add_rule
  obtain ⟨-, hsub, -⟩ := sub_rule
  refine fun a s hp => ⟨⟨_, hadd a s hp, addCarry_eq_true_iff s.ac _⟩, ⟨_, hsub a s hp, ?_, ?_⟩⟩
  · exact (Bool.eq_iff_iff.mp (subBorrow_eq s.ac _)).trans decide_eq_true_iff
  · exact subBorrow_eq_false_iff s.ac _

/-- Settles O39: by the rules of ADD and SUB the new AC is `addResult` and `subResult`, and the signed reading is
congruent to the unsigned one. -/
theorem addAndSubWrapInBothReadings : Obligations.AddAndSubWrapInBothReadings := by
  obtain ⟨-, hadd, -⟩ := add_rule
  obtain ⟨-, hsub, -⟩ := sub_rule
  exact fun a s hp =>
    ⟨⟨_, hadd a s hp, addResult_toNat s.ac _, s8_addResult_emod s.ac _⟩,
      ⟨_, hsub a s hp, subResult_toNat_emod s.ac _, s8_subResult_emod s.ac _⟩⟩

/-- R141: an effect that writes N writes N and Z together, from the AC it leaves. -/
theorem dataEffect_nz {i : Instr} (s : State) (h : (flagsWritten i.cls).1 = true) :
    (dataEffect i s).n = bit7 (dataEffect i s).ac ∧ (dataEffect i s).z = isZero (dataEffect i s).ac := by
  cases i with
  | lda a | add a | or a | and a | not | sub a | shr | shl => exact ⟨rfl, rfl⟩
  | nop | sta a | ror | rol | hlt | unmappedA8 op | unmappedC0 op => cases h
  | jmp a | jn a | jp a | jv a | jnv a | jz a | jnz a | jc a | jnc a | jb a | jnb a => cases h

/-- Settles O40: where an instruction fits its outcome has the data of its effect. -/
theorem negativeAndZeroDescribeTheNewAccumulator : Obligations.NegativeAndZeroDescribeTheNewAccumulator := by
  intro i s hwrites hfit
  obtain ⟨t, ht⟩ := exec_answers i s
  have hdata := exec_data_of_fits hfit ht
  obtain ⟨hn, hz⟩ := dataEffect_nz s hwrites
  rw [← hdata.n, ← hdata.ac] at hn
  rw [← hdata.z, ← hdata.ac] at hz
  exact ⟨t, ht, hn, by rw [hz, isZero, decide_eq_true_iff]⟩

/-! ### The rules in numbers -/

theorem twoByteRule_congr {mk : Byte → Instr} {lo hi : Nat} {effect effect' : Byte → State → State}
    (h : TwoByteRule mk lo hi effect) (heq : ∀ (a : Byte) (s : State), effect a s = effect' a s) :
    TwoByteRule mk lo hi effect' :=
  (funext₂ heq : effect = effect') ▸ h

/-- R141: AC with its N and Z, from the number of the byte. -/
theorem State.setAcNZ_of_toNat (s : State) {x : Byte} {r : Nat} (h : x.toNat = r) :
    s.setAcNZ x = { s with ac := BitVec.ofNat 8 r, n := decide (128 ≤ r), z := decide (r = 0) } := by
  subst h
  rw [State.setAcNZ_eq, BitVec.ofNat_toNat, BitVec.setWidth_eq]

/-- Settles O33: ADD's rule, with its result and flags as numbers. -/
theorem addWritesSumAndFlags : Obligations.AddWritesSumAndFlags := by
  refine twoByteRule_congr add_rule fun a s => congrArg pastTwoBytes ?_
  rw [dataEffect, State.setAcNZ_of_toNat _ (addResult_toNat _ _), addOverflow_eq, addCarry_eq]
  rfl

/-- Settles O36: SUB's rule, with its result and flags as numbers. -/
theorem subWritesDifferenceAndFlags : Obligations.SubWritesDifferenceAndFlags := by
  refine twoByteRule_congr sub_rule fun a s => congrArg pastTwoBytes ?_
  rw [dataEffect, State.setAcNZ_of_toNat _ (subResult_toNat _ _), subOverflow_eq, subBorrow_eq]
  rfl

/-- Settles O34: the rules of OR and AND, with the result read off the bitwise operation on numbers. -/
theorem orAndAreBitwise : Obligations.OrAndAreBitwise := by
  refine ⟨twoByteRule_congr or_rule fun a s => congrArg pastTwoBytes ?_,
    twoByteRule_congr and_rule fun a s => congrArg pastTwoBytes ?_⟩
  · rw [← BitVec.toNat_or, BitVec.ofNat_toNat, BitVec.setWidth_eq]
    exact State.setAcNZ_eq s _
  · rw [← BitVec.toNat_and, BitVec.ofNat_toNat, BitVec.setWidth_eq]
    exact State.setAcNZ_eq s _

/-- Settles O35: bytes 96 to 111 are NOT's band, and the complement of a byte is 255 minus it. -/
theorem notComplements : Obligations.NotComplements := by
  refine ⟨fun op rest hlo hhi => ?_, fun s hp => ?_⟩
  · have hcls : classify op = .not := classify_of_inBand (row := (.not, 96, 111, 1)) (by decide) ⟨hlo, hhi⟩
    simp only [decode, hcls]
  · calc exec .not s = .next (pastOneByte (s.setAcNZ (~~~s.ac))) := oneByteForm_eq_past (effect := s.setAcNZ _) hp
      _ = _ := congrArg (Host.Outcome.next <| pastOneByte ·) (State.setAcNZ_of_toNat s BitVec.toNat_not)

end Sys2Proof.Machine
end

section
/-! The statements of 43_control.md: JMP (R170, R182), the ten conditional jumps (R171 to R181), and comparing by
SUB (R184). Before them, the rule that the shape of a jump gives an instruction, and what SUB's flags compare. -/

namespace Sys2Proof.Machine

open Sys2Proof.Claims

/-! ### The rule of a jump -/

/-- R79: the decoder looks at a first byte of a mapped class for its class alone. -/
theorem decode_of_same_class {op op' : Byte} (tl : List Byte) (hcls : classify op = classify op')
    (hmapped : classify op ≠ .unmapped) : decode (op :: tl) = decode (op' :: tl) := by
  simp only [decode, ← hcls]
  generalize classify op = cls at hmapped
  cases cls with
  | unmapped => exact absurd rfl hmapped
  | _ => rfl

/-- R79, R80: every byte of a two-byte class decodes with its operand as the base value of the class does. -/
theorem decode_of_bandBase {op a : Byte} {rest : List Byte} {i : Instr} (hlen : (classify op).length = 2)
    (h : decode (bandBase (classify op) :: a :: rest) = .ok (i, rest)) : decode (op :: a :: rest) = .ok (i, rest) := by
  have hmapped : classify op ≠ .unmapped := by
    intro hop
    rw [hop] at hlen
    cases hlen
  exact (decode_of_same_class _ (classify_bandBase hmapped).symm hmapped).trans h

theorem jumpTarget_eq (a : Byte) : jumpTarget a = BitVec.ofNat 9 a.toNat := (BitVec.ofNat_toNat 9 a).symm

/-- R182: the target is the operand byte itself, so a jump to it never runs off the end. -/
theorem State.goTo_jumpTarget (s : State) (a : Byte) :
    s.goTo (jumpTarget a) = { s with pc := BitVec.ofNat 9 a.toNat } := by
  rw [goTo, runAfter_jumpTarget, jumpTarget_eq]

/-- R171: an instruction of the band from `lo` to `hi` whose meaning has the shape of a jump has the rule of one. -/
theorem jumpRule_of_jumpIf {mk : Byte → Instr} {cls : OpClass} {lo hi : Nat} {cond : State → Bool}
    (hband : (cls, lo, hi, 2) ∈ bandTable)
    (hdecode : ∀ (a : Byte) (rest : List Byte), decode (bandBase cls :: a :: rest) = .ok (mk a, rest))
    (hexec : ∀ (a : Byte) (s : State), exec (mk a) s = jumpIf (cond s) a s) : JumpRule mk lo hi cond := by
  refine twoByteRule_of_form hband (fun op a rest hcls => ?_) hexec fun a s hp => ?_
  · subst hcls
    exact decode_of_bandBase (bandTable_length _ hband) (hdecode a rest)
  · cases cond s with
    | true => exact s.goTo_jumpTarget a
    | false => exact s.finishTwoByte_eq hp

/-- Settles O45: JMP is the jump whose condition always holds. -/
theorem jmpGoesToItsOperand : Obligations.JmpGoesToItsOperand :=
  jumpRule_of_jumpIf (cls := .jmp) (cond := fun _ => true) (by decide) (fun _ _ => rfl) fun _ _ => rfl

/-- Settles O46: each of the ten has a band of its own and the shape of a jump. -/
theorem conditionalJumpsTestTheirFlag : Obligations.ConditionalJumpsTestTheirFlag :=
  ⟨jumpRule_of_jumpIf (cls := .jn) (by decide) (fun _ _ => rfl) fun _ _ => rfl,
    jumpRule_of_jumpIf (cls := .jp) (by decide) (fun _ _ => rfl) fun _ _ => rfl,
    jumpRule_of_jumpIf (cls := .jv) (by decide) (fun _ _ => rfl) fun _ _ => rfl,
    jumpRule_of_jumpIf (cls := .jnv) (by decide) (fun _ _ => rfl) fun _ _ => rfl,
    jumpRule_of_jumpIf (cls := .jz) (by decide) (fun _ _ => rfl) fun _ _ => rfl,
    jumpRule_of_jumpIf (cls := .jnz) (by decide) (fun _ _ => rfl) fun _ _ => rfl,
    jumpRule_of_jumpIf (cls := .jc) (by decide) (fun _ _ => rfl) fun _ _ => rfl,
    jumpRule_of_jumpIf (cls := .jnc) (by decide) (fun _ _ => rfl) fun _ _ => rfl,
    jumpRule_of_jumpIf (cls := .jb) (by decide) (fun _ _ => rfl) fun _ _ => rfl,
    jumpRule_of_jumpIf (cls := .jnb) (by decide) (fun _ _ => rfl) fun _ _ => rfl⟩

/-! ### Comparing by SUB -/

/-- R184: Z of a difference says equality. -/
theorem isZero_subResult_eq_true_iff (x y : Byte) : isZero (subResult x y) = true ↔ x = y := by
  have hx := x.isLt
  have hy := y.isLt
  rw [isZero_eq, decide_eq_true_iff, subResult_toNat, ← BitVec.toNat_inj]
  omega

/-- R150: B says the unsigned less-than. -/
theorem subBorrow_eq_true_iff (x y : Byte) : subBorrow x y = true ↔ x.toNat < y.toNat := by
  rw [subBorrow_eq, decide_eq_true_iff]

theorem s8_range (x : Byte) : -128 ≤ s8 x ∧ s8 x ≤ 127 := by
  rcases s8_cases x with ⟨_, hx⟩ | ⟨_, _, hx⟩ <;> omega

/-- R9: bit 7 is the sign of the signed reading. -/
theorem bit7_eq_true_iff (x : Byte) : bit7 x = true ↔ s8 x < 0 := by
  rw [bit7_eq, decide_eq_true_iff]
  rcases s8_cases x with ⟨_, hx⟩ | ⟨_, _, hx⟩ <;> omega

/-- R184: the sign of the result is the sign of the signed difference, unless V says that this is out of range, and
then it is the other one. -/
theorem bit7_xor_subOverflow_eq_true_iff (x y : Byte) :
    (bit7 (subResult x y) ^^ subOverflow x y) = true ↔ s8 x < s8 y := by
  have hcong := s8_subResult_emod x y
  have hsign := bit7_eq_true_iff (subResult x y)
  have hover := subOverflow_eq_true_iff x y
  have hrange := s8_range (subResult x y)
  have hx := s8_range x
  have hy := s8_range y
  rw [Bool.xor_iff_ne, ne_eq, Bool.eq_iff_iff, hsign, hover]
  omega

/-- R171: where a jump goes from a state in which it is taken exactly if `p`. -/
theorem exec_pc_of_taken_iff {i : Instr} {a : Byte} {s : State} {p : Prop} [Decidable p] (hlen : i.cls.length = 2)
    (ha : (encode i).tail = [a]) (hp : s.pc.toNat ≤ 254) (htaken : jumpTaken s i.cls = some true ↔ p) :
    ∃ u, exec i s = .next u ∧ u.pc.toNat = if p then a.toNat else s.pc.toNat + 2 := by
  obtain ⟨u, hu⟩ := exec_answers i s
  refine ⟨u, hu, ?_⟩
  rw [exec_pc_of_length_two hlen ha (Nat.lt_succ_of_le hp) hu, apply_ite BitVec.toNat, jumpTarget_toNat,
    s.pcPlus_toNat 2 (by omega)]
  exact if_congr htaken rfl rfl

/-- Settles O41: by SUB's rule the new Z, B, N and V are those of the difference, and two bytes on JZ and JB test
the first two. -/
theorem compareBySubtracting : Obligations.CompareBySubtracting := by
  intro a x y s hp
  obtain ⟨-, hsub, -⟩ := sub_rule
  have hz := isZero_subResult_eq_true_iff s.ac (s.mem.read a.toNat)
  have hb := subBorrow_eq_true_iff s.ac (s.mem.read a.toNat)
  have hpc : (pastTwoBytes (dataEffect (.sub a) s)).pc.toNat = s.pc.toNat + 2 :=
    pastTwoBytes_pc_toNat (s := dataEffect (.sub a) s) (hp.trans (by decide))
  have hjz := exec_pc_of_taken_iff (i := .jz x) rfl rfl (hpc.trans_le (by omega)) (Option.some_inj.trans hz)
  have hjb := exec_pc_of_taken_iff (i := .jb y) rfl rfl (hpc.trans_le (by omega)) (Option.some_inj.trans hb)
  rw [hpc] at hjz hjb
  exact ⟨_, hsub a s (hp.trans (by decide)), hz, hb, bit7_xor_subOverflow_eq_true_iff s.ac _, hjz, hjb⟩

end Sys2Proof.Machine
end

section
/-! The statements of 44_shift_rotate.md: the rules of SHR, SHL, ROR and ROL (R191 to R194, R198), the ring that the
rotates turn (R195, R196), and SHR and SHL one after the other (R197). -/

namespace Sys2Proof.Machine

open Sys2Proof.Claims

/-! ### The rules of the one-byte forms -/

theorem exec_shr (s : State) : exec .shr s = .next (dataEffect .shr s).finishOneByte := rfl
theorem exec_shl (s : State) : exec .shl s = .next (dataEffect .shl s).finishOneByte := rfl
theorem exec_ror (s : State) : exec .ror s = .next (dataEffect .ror s).finishOneByte := rfl
theorem exec_rol (s : State) : exec .rol s = .next (dataEffect .rol s).finishOneByte := rfl

theorem dataEffect_pc (i : Instr) (s : State) : (dataEffect i s).pc = s.pc := by
  cases i <;> rfl

/-- An instruction of the band from `lo` to `hi` that ends by advancing past its one byte has the one-byte rule of
its effect on the data. -/
theorem oneByteRule_of_dataEffect {i : Instr} {lo hi : Nat} {effect : State → State}
    (hband : (i.cls, lo, hi, 1) ∈ bandTable) (hmapped : i.cls ≠ .unmapped)
    (hdecode : ∀ rest : List Byte, decode (bandBase i.cls :: rest) = .ok (i, rest))
    (hexec : ∀ s : State, exec i s = .next (dataEffect i s).finishOneByte)
    (heffect : ∀ s : State, dataEffect i s = effect s) : OneByteRule i lo hi fun s => pastOneByte (effect s) := by
  refine ⟨fun op rest hlo hhi => ?_, fun s hp => ?_⟩
  · have hcls : classify op = i.cls := classify_of_inBand hband ⟨hlo, hhi⟩
    rw [← hcls] at hmapped hdecode
    exact (decode_of_same_class rest (classify_bandBase hmapped).symm hmapped).trans (hdecode rest)
  · rw [hexec, State.finishOneByte_eq ((dataEffect_pc i s).symm ▸ hp), heffect]

/-- R191: half a byte never has bit 7, so N is 0. -/
theorem dataEffect_shr (s : State) : dataEffect .shr s = { s with
    ac := BitVec.ofNat 8 (s.ac.toNat / 2), c := decide (s.ac.toNat % 2 = 1), n := false,
    z := decide (s.ac.toNat / 2 = 0) } := by
  have hn : ¬ 128 ≤ s.ac.toNat / 2 := by have := s.ac.isLt; omega
  rw [dataEffect, State.setAcNZ_of_toNat _ (shrResult_toNat s.ac), decide_eq_false hn, bit0_eq]
  rfl

/-- Settles O47: bytes 224 to 227 are SHR's band, and its effect is `dataEffect_shr`. -/
theorem shrShiftsRight : Obligations.ShrShiftsRight :=
  oneByteRule_of_dataEffect (by decide) nofun (fun _ => rfl) exec_shr dataEffect_shr

/-- R192: the effect of SHL in numbers. -/
theorem dataEffect_shl (s : State) : dataEffect .shl s = { s with
    ac := BitVec.ofNat 8 (2 * s.ac.toNat % 256), c := decide (128 ≤ s.ac.toNat),
    n := decide (128 ≤ 2 * s.ac.toNat % 256), z := decide (2 * s.ac.toNat % 256 = 0) } := by
  rw [dataEffect, State.setAcNZ_of_toNat _ (shlResult_toNat s.ac), bit7_eq]
  rfl

/-- Settles O48: bytes 228 to 231 are SHL's band, and its effect is `dataEffect_shl`. -/
theorem shlShiftsLeft : Obligations.ShlShiftsLeft :=
  oneByteRule_of_dataEffect (by decide) nofun (fun _ => rfl) exec_shl dataEffect_shl

/-- R198: the write-back of a rotate on this hardware is AC and C alone. -/
theorem State.setRotated_config (s : State) (carry : Bool) {x : Byte} {r : Nat} (h : x.toNat = r) :
    s.setRotated Config.rotateSetsNZ x carry = { s with ac := BitVec.ofNat 8 r, c := carry } := by
  subst h
  rw [BitVec.ofNat_toNat, BitVec.setWidth_eq]
  exact s.setRotated_false x carry

/-- R193: the effect of ROR in numbers. -/
theorem dataEffect_ror (s : State) : dataEffect .ror s = { s with
    ac := BitVec.ofNat 8 (s.ac.toNat / 2 + 128 * s.c.toNat), c := decide (s.ac.toNat % 2 = 1) } := by
  rw [dataEffect, s.setRotated_config _ (rorResult_toNat s.c s.ac), bit0_eq]

/-- R194: the effect of ROL in numbers. -/
theorem dataEffect_rol (s : State) : dataEffect .rol s = { s with
    ac := BitVec.ofNat 8 (2 * s.ac.toNat % 256 + s.c.toNat), c := decide (128 ≤ s.ac.toNat) } := by
  rw [dataEffect, s.setRotated_config _ (rolResult_toNat s.c s.ac), bit7_eq]

/-- Settles O49: each rotate has its band, and its effect is `dataEffect_ror` or `dataEffect_rol`. -/
theorem rotatesGoThroughTheCarry : Obligations.RotatesGoThroughTheCarry :=
  ⟨oneByteRule_of_dataEffect (by decide) nofun (fun _ => rfl) exec_ror dataEffect_ror,
    oneByteRule_of_dataEffect (by decide) nofun (fun _ => rfl) exec_rol dataEffect_rol⟩

/-! ### The ring, bit by bit -/

/-- R195: the low eight bits of the ring are AC. -/
theorem ring_getLsbD_of_lt (s : State) {j : Nat} (h : j < 8) : (ring s).getLsbD j = s.ac.getLsbD j := by
  rw [ring, BitVec.getLsbD_append, if_pos h]

/-- R195: the top bit of the ring is C. -/
theorem ring_getLsbD_eight (s : State) : (ring s).getLsbD 8 = s.c := by
  rw [ring, BitVec.getLsbD_append, if_neg (by decide)]
  exact BitVec.getLsbD_ofBool s.c 0

/-- Two states with the same ring have the same AC and C. -/
theorem ac_c_of_ring_eq {s t : State} (h : ring t = ring s) : t.ac = s.ac ∧ t.c = s.c := by
  constructor
  · refine BitVec.eq_of_getLsbD_eq fun j hj => ?_
    rw [← ring_getLsbD_of_lt t hj, h, ring_getLsbD_of_lt s hj]
  · rw [← ring_getLsbD_eight t, h, ring_getLsbD_eight s]

/-- R194: bit 0 is the old carry, every other bit the one below it. -/
theorem rolResult_getLsbD (c : Bool) (x : Byte) {j : Nat} (h : j < 8) :
    (rolResult c x).getLsbD j = if j = 0 then c else x.getLsbD (j - 1) := by
  cases j with
  | zero => simp [rolResult]
  | succ j => simp [rolResult, h, -BitVec.getLsbD_eq_getElem]

/-- R193: bit 7 is the old carry, every other bit the one above it. -/
theorem rorResult_getLsbD (c : Bool) (x : Byte) {j : Nat} (h : j < 8) :
    (rorResult c x).getLsbD j = if j = 7 then c else x.getLsbD (j + 1) := by
  by_cases h7 : j = 7
  · subst h7
    simp [rorResult]
  · have hlow : j < 7 := by omega
    simp [rorResult, h7, hlow, Nat.add_comm]

/-- A left rotation by one takes each bit from eight places further up: the one below it, around the ring. -/
theorem rotateLeft_one_getLsbD (x : BitVec 9) {j : Nat} (h : j < 9) :
    (x.rotateLeft 1).getLsbD j = x.getLsbD ((j + 8) % 9) := by
  rw [BitVec.getLsbD_rotateLeft]
  cases j with
  | zero => rfl
  | succ j =>
    have hbelow : (j + 1 + 8) % 9 = j := by omega
    simp [hbelow, h]

/-- A right rotation by one takes each bit from the one above it, around the ring. -/
theorem rotateRight_one_getLsbD (x : BitVec 9) {j : Nat} (h : j < 9) :
    (x.rotateRight 1).getLsbD j = x.getLsbD ((j + 1) % 9) := by
  rw [BitVec.getLsbD_rotateRight]
  rcases Nat.lt_succ_iff_lt_or_eq.mp h with hlow | rfl
  · have habove : (j + 1) % 9 = j + 1 := by omega
    simp [habove, hlow, Nat.add_comm 1 j]
  · rfl

/-- R195: ROL's effect is a left rotation of the ring. -/
theorem ring_rol (s : State) : ring (dataEffect .rol s) = (ring s).rotateLeft 1 := by
  refine BitVec.eq_of_getLsbD_eq fun j hj => ?_
  rw [rotateLeft_one_getLsbD _ hj]
  rcases Nat.lt_succ_iff_lt_or_eq.mp hj with hac | rfl
  · refine (ring_getLsbD_of_lt _ hac).trans ((rolResult_getLsbD s.c s.ac hac).trans ?_)
    cases j with
    | zero => exact (ring_getLsbD_eight s).symm
    | succ j =>
      have hbelow : (j + 1 + 8) % 9 = j := by omega
      rw [if_neg j.succ_ne_zero, hbelow, ring_getLsbD_of_lt s (by omega), Nat.add_sub_cancel]
  · exact (ring_getLsbD_eight _).trans (ring_getLsbD_of_lt s (j := 7) (by decide)).symm

/-- R195: ROR's effect is a right rotation of the ring. -/
theorem ring_ror (s : State) : ring (dataEffect .ror s) = (ring s).rotateRight 1 := by
  refine BitVec.eq_of_getLsbD_eq fun j hj => ?_
  rw [rotateRight_one_getLsbD _ hj]
  rcases Nat.lt_succ_iff_lt_or_eq.mp hj with hac | rfl
  · refine (ring_getLsbD_of_lt _ hac).trans ((rorResult_getLsbD s.c s.ac hac).trans ?_)
    rcases Nat.lt_succ_iff_lt_or_eq.mp hac with hlow | rfl
    · rw [if_neg hlow.ne, Nat.mod_eq_of_lt (by omega), ring_getLsbD_of_lt s (by omega)]
    · exact (ring_getLsbD_eight s).symm
  · exact (ring_getLsbD_eight _).trans (ring_getLsbD_of_lt s (j := 0) (by decide)).symm

/-! ### Turning the ring -/

/-- Every bit of `t`'s ring comes from `k` places further up in the ring of `s`, counted around it. -/
def RingTurned (k : Nat) (s t : State) : Prop :=
  ∀ j < 9, (ring t).getLsbD j = (ring s).getLsbD ((j + k) % 9)

theorem ringTurned_zero (s : State) : RingTurned 0 s s := fun j hj => by rw [Nat.add_zero, Nat.mod_eq_of_lt hj]

theorem RingTurned.trans {k l : Nat} {s t u : State} (hst : RingTurned k s t) (htu : RingTurned l t u) :
    RingTurned (l + k) s u := fun j hj => by
  rw [htu j hj, hst _ (Nat.mod_lt _ (by decide)), Nat.mod_add_mod, Nat.add_assoc]

/-- R195, R196: full turns restore AC and C. -/
theorem RingTurned.restores {m : Nat} {s t : State} (h : RingTurned (9 * m) s t) : t.ac = s.ac ∧ t.c = s.c :=
  ac_c_of_ring_eq <| BitVec.eq_of_getLsbD_eq fun j hj => by
    rw [h j hj, Nat.add_mul_mod_self_left, Nat.mod_eq_of_lt hj]

/-- R195: ROL is a turn by eight places up, which is one down. -/
theorem finishOneByte_rol_turned (s : State) : RingTurned 8 s (dataEffect .rol s).finishOneByte := fun j hj =>
  (congrArg (BitVec.getLsbD · j) (ring_rol s)).trans (rotateLeft_one_getLsbD _ hj)

/-- R195: ROR is a turn by one place up. -/
theorem finishOneByte_ror_turned (s : State) : RingTurned 1 s (dataEffect .ror s).finishOneByte := fun j hj =>
  (congrArg (BitVec.getLsbD · j) (ring_ror s)).trans (rotateRight_one_getLsbD _ hj)

/-- An instruction that turns the ring by `k` turns it by `n * k` when it is run `n` times. -/
theorem execAll_replicate_turned {i : Instr} {k : Nat} {next : State → State}
    (hexec : ∀ s, exec i s = .next (next s)) (hturn : ∀ s, RingTurned k s (next s)) (n : Nat) (s : State) :
    ∃ t, execAll (List.replicate n i) s = .next t ∧ RingTurned (n * k) s t := by
  induction n generalizing s with
  | zero => exact ⟨s, rfl, by rw [Nat.zero_mul]; exact ringTurned_zero s⟩
  | succ n ih =>
    obtain ⟨t, hrun, ht⟩ := ih (next s)
    refine ⟨t, (execAll_cons_of_next (hexec s)).trans hrun, ?_⟩
    rw [Nat.succ_mul]
    exact (hturn s).trans ht

/-- Settles O51: one rotate turns the ring by one place, so nine of the same turn it fully. -/
theorem rotatesTurnTheNineBitRing : Obligations.RotatesTurnTheNineBitRing := by
  refine fun s => ⟨fun _ => ⟨_, exec_rol s, ring_rol s⟩, fun _ => ⟨_, exec_ror s, ring_ror s⟩, fun _ => ?_,
    fun _ => ?_⟩
  · obtain ⟨t, hrun, ht⟩ := execAll_replicate_turned exec_rol finishOneByte_rol_turned 9 s
    exact ⟨t, hrun, ht.restores⟩
  · obtain ⟨t, hrun, ht⟩ := execAll_replicate_turned exec_ror finishOneByte_ror_turned 9 s
    exact ⟨t, hrun, ht.restores⟩

/-! ### Two in a row -/

/-- R198: a rotate writes neither N nor Z, nor V nor B. -/
theorem flags_kept_of_rotate {i : Instr} (hi : i = .rol ∨ i = .ror) {s t : State} (h : exec i s = .next t) :
    t.n = s.n ∧ t.z = s.z ∧ t.v = s.v ∧ t.b = s.b := by
  obtain ⟨hn, hz, hv, -, hb⟩ := flagsChangeOnlyByTheTable.1 i s t h
  rcases hi with rfl | rfl <;> exact ⟨hn rfl, hz rfl, hv rfl, hb rfl⟩

/-- Two rotates in a row that make one full turn restore AC and C and keep the other flags. -/
theorem rotates_undo {i j : Instr} {k l : Nat} {s t u : State} (hi : i = .rol ∨ i = .ror) (hj : j = .rol ∨ j = .ror)
    (hst : exec i s = .next t) (htu : exec j t = .next u) (hk : RingTurned k s t) (hl : RingTurned l t u)
    (hfull : l + k = 9) :
    ∃ w, execAll [i, j] s = .next w ∧ w.ac = s.ac ∧ w.c = s.c ∧ w.n = s.n ∧ w.z = s.z ∧ w.v = s.v ∧ w.b = s.b := by
  obtain ⟨hac, hc⟩ := RingTurned.restores (m := 1) (hfull ▸ hk.trans hl)
  obtain ⟨hn, hz, hv, hb⟩ := flags_kept_of_rotate hi hst
  obtain ⟨hn', hz', hv', hb'⟩ := flags_kept_of_rotate hj htu
  exact ⟨u, (execAll_cons_of_next hst).trans (execAll_cons_of_next htu), hac, hc, hn'.trans hn, hz'.trans hz,
    hv'.trans hv, hb'.trans hb⟩

/-- Settles O52: a turn by eight and a turn by one make a full turn, in either order. -/
theorem rotatesUndoEachOther : Obligations.RotatesUndoEachOther := fun s _ =>
  ⟨rotates_undo (.inl rfl) (.inr rfl) (exec_rol s) (exec_ror _) (finishOneByte_rol_turned s)
      (finishOneByte_ror_turned _) rfl,
    rotates_undo (.inr rfl) (.inl rfl) (exec_ror s) (exec_rol _) (finishOneByte_ror_turned s)
      (finishOneByte_rol_turned _) rfl⟩

/-- R197: shifting left loses bit 7 for good. -/
theorem shrResult_shlResult (x : Byte) : shrResult (shlResult x) = x &&& 0x7F := by
  apply BitVec.eq_of_toNat_eq
  calc (shrResult (shlResult x)).toNat = 2 * x.toNat % 256 / 2 := by rw [shrResult_toNat, shlResult_toNat]
    _ = x.toNat % 2 ^ 7 := by omega
    _ = (x &&& 0x7F).toNat := (Nat.and_two_pow_sub_one_eq_mod x.toNat 7).symm

/-- R197: shifting right loses bit 0 for good. -/
theorem shlResult_shrResult (x : Byte) : shlResult (shrResult x) = x &&& 0xFE :=
  BitVec.shiftLeft_ushiftRight (n := 1)

/-- R197: what SHL fills in at bit 0 is what SHR shifts out. -/
theorem bit0_shlResult (x : Byte) : bit0 (shlResult x) = false := by
  rw [bit0_eq, shlResult_toNat, decide_eq_false_iff_not]
  omega

/-- R197: what SHR fills in at bit 7 is what SHL shifts out. -/
theorem bit7_shrResult (x : Byte) : bit7 (shrResult x) = false := by
  have hx := x.isLt
  rw [bit7_eq, shrResult_toNat, decide_eq_false_iff_not]
  omega

/-- Settles O53: the second shift works on the AC the first one leaves. -/
theorem shiftsAreNotInverses : Obligations.ShiftsAreNotInverses := fun s _ =>
  ⟨⟨_, (execAll_cons_of_next (exec_shl s)).trans (execAll_cons_of_next (exec_shr _)), shrResult_shlResult s.ac,
      bit0_shlResult s.ac⟩,
    ⟨_, (execAll_cons_of_next (exec_shr s)).trans (execAll_cons_of_next (exec_shl _)), shlResult_shrResult s.ac,
      bit7_shrResult s.ac⟩⟩

end Sys2Proof.Machine
end

section
/-! The statements of 60_exceptions.md: the records of a step (R232, R233), the shape of the trace, and the trace as
output only (R232). Before them, the records a step appends and what they do to the shape of a trace. -/

namespace Sys2Proof.Machine

open Sys2Proof.Claims

/-! ### What the fetch says of a step that goes on -/

/-- R50: past address 255 there is no opcode byte. -/
theorem State.fetch_of_pc_past_memory {s : State} (hp : 255 < s.pc.toNat) : s.fetch = .error .noOpcode := by
  have hbytes : s.fetchBytes = [] := if_neg (by omega)
  exact fetch_error (congrArg decode hbytes)

theorem pc_le_of_step {s t : State} (hr : s.run = .run) (h : step s = .next t) : s.pc.toNat ≤ 255 := by
  by_contra hp
  have hf := State.fetch_of_pc_past_memory (not_le.mp hp)
  simp [step, hr, hf, stepUnfetched] at h

/-! ### The records of a step -/

/-- The records a step appends: none in a terminal state, else the Step record and the Unmapped record of an
unmapped byte (R232, R233). `step_appends` ties it to `step`. -/
def stepRecords (s : State) : List Event :=
  if s.run = .run then
    .step s.pc s.opcode (classAtPc s) :: (if classAtPc s = .unmapped then [.unmapped s.pc s.opcode] else [])
  else []

theorem stepRecords_of_terminal {s : State} (hterm : s.run ≠ .run) : stepRecords s = [] := if_neg hterm

theorem stepRecords_of_unmapped {s : State} (hr : s.run = .run) (hcls : classAtPc s = .unmapped) :
    stepRecords s = [.step s.pc s.opcode (classAtPc s), .unmapped s.pc s.opcode] := by
  rw [stepRecords, if_pos hr, if_pos hcls]

theorem stepRecords_of_mapped {s : State} (hr : s.run = .run) (hcls : classAtPc s ≠ .unmapped) :
    stepRecords s = [.step s.pc s.opcode (classAtPc s)] := by
  rw [stepRecords, if_pos hr, if_neg hcls]

/-! ### A step under another trace -/

theorem twoByteForm_of_other_trace {s after t : State} (tr : List Event) (h : twoByteForm s after = .next t) :
    twoByteForm { s with trace := tr } { after with trace := tr } = .next { t with trace := tr } := by
  rcases twoByteForm_cases h with ⟨hfit, rfl⟩ | ⟨hoff, rfl⟩
  · exact twoByteForm_fits hfit
  · exact twoByteForm_off_end hoff

/-- R232: an instruction of one of the 24 classes neither reads nor writes the trace. -/
theorem exec_of_other_trace {i : Instr} {s t : State} (tr : List Event) (hi : i.cls ≠ .unmapped)
    (h : exec i s = .next t) : exec i { s with trace := tr } = .next { t with trace := tr } := by
  cases i with
  | nop | not | shr | shl | ror | rol | hlt => cases h; rfl
  | sta a | lda a | add a | or a | and a | sub a
  | jmp a | jn a | jp a | jv a | jnv a | jz a | jnz a | jc a | jnc a | jb a | jnb a =>
    exact twoByteForm_of_other_trace tr h
  | unmappedA8 op | unmappedC0 op => exact absurd rfl hi

/-- R233: an unmapped byte appends its own record to whatever the trace holds. -/
theorem exec_unmappedRow_of_other_trace {op : Byte} {s t : State} (tr : List Event)
    (h : exec (unmappedRow op) s = .next t) :
    exec (unmappedRow op) { s with trace := tr } = .next { t with trace := tr ++ [.unmapped s.pc op] } := by
  rw [exec_unmappedRow] at h ⊢
  cases h
  rfl

theorem State.eq_unmappedRow_of_fetch {s : State} {i : Instr} (hp : s.pc.toNat ≤ 255)
    (hcls : classAtPc s = .unmapped) (h : s.fetch = .ok i) : i = unmappedRow s.opcode :=
  Except.ok.inj (h.symm.trans (fetch_of_decode hp (decode_of_unmapped _ hcls)))

/-- R232: a step appends its records to whatever the trace holds, and does the same to all the rest. -/
theorem step_appends {s t : State} (h : step s = .next t) (tr : List Event) :
    step { s with trace := tr } = .next { t with trace := tr ++ stepRecords s } := by
  rcases step_cases h with ⟨hterm, rfl⟩ | ⟨hr, i, hf, hexec⟩ | ⟨hr, cls, hf, rfl⟩
  · rw [stepRecords_of_terminal hterm, List.append_nil]
    exact step_terminal hterm
  · have hp := pc_le_of_step hr h
    have hstep : step { s with trace := tr } =
        exec i { s.recordStep with trace := tr ++ [.step s.pc s.opcode (classAtPc s)] } :=
      step_of_fetch_ok (s := { s with trace := tr }) hr hf
    by_cases hcls : classAtPc s = .unmapped
    · obtain rfl := State.eq_unmappedRow_of_fetch hp hcls hf
      rw [hstep, exec_unmappedRow_of_other_trace _ hexec, stepRecords_of_unmapped hr hcls, List.append_assoc]
      rfl
    · have hi : i.cls ≠ .unmapped := State.cls_of_fetch hp hf ▸ hcls
      rw [hstep, exec_of_other_trace _ hi hexec, stepRecords_of_mapped hr hcls]
  · have hcls : classAtPc s ≠ .unmapped := fun hcls => by
      cases hf.symm.trans (State.fetch_of_decode (pc_le_of_step hr h) (decode_of_unmapped _ hcls))
    rw [stepRecords_of_mapped hr hcls]
    exact step_of_missingOperand (s := { s with trace := tr }) hr hf

/-- The step under its own trace is the step itself. -/
theorem step_trace {s t : State} (h : step s = .next t) : t.trace = s.trace ++ stepRecords s :=
  congrArg State.trace (Host.Outcome.next.inj (h.symm.trans (step_appends h s.trace)))

/-- Settles O22: the records are `stepRecords`, which `step_appends` appends to any trace. -/
theorem noStepReadsTheTrace : Obligations.NoStepReadsTheTrace := fun s _ tr h =>
  ⟨stepRecords s, step_trace h, step_appends h tr⟩

/-- Settles O20: from an address a step answers (O19), and its records are `stepRecords`. -/
theorem everyStepIsRecorded : Obligations.EveryStepIsRecorded := by
  intro s hr hp
  obtain ⟨t, hstep, -⟩ := nextPcFollowsTheClass s hr hp
  have hrecords := step_trace hstep
  rw [stepRecords, if_pos hr] at hrecords
  exact ⟨t, hstep, hrecords⟩

/-! ### The shape of the trace -/

/-- After a whole trace no Unmapped record is due, so what follows is shaped as a trace of its own. -/
theorem traceWfFrom_append {due : Option (PcWord × Byte)} {tr : List Event} (tr' : List Event)
    (h : traceWfFrom due tr = true) : traceWfFrom due (tr ++ tr') = traceWf tr' := by
  induction tr generalizing due with
  | nil =>
    cases due with
    | none => rfl
    | some _ => cases h
  | cons e tr ih =>
    cases e with
    | step pc op cls =>
      cases due with
      | none =>
        simp only [traceWfFrom, Bool.and_eq_true] at h
        obtain ⟨⟨hpc, hcls⟩, htail⟩ := h
        simp only [List.cons_append, traceWfFrom, hpc, hcls, Bool.true_and, ih htail]
      | some _ => cases h
    | unmapped pc op =>
      cases due with
      | none => cases h
      | some _ =>
        simp only [traceWfFrom, Bool.and_eq_true] at h
        obtain ⟨hdue, htail⟩ := h
        simp only [List.cons_append, traceWfFrom, hdue, Bool.true_and, ih htail]

/-- R232, R233: the records of a step are a well-formed trace by themselves. -/
theorem stepRecords_traceWf {s : State} (hp : s.run = .run → s.pc.toNat ≤ 255) :
    traceWf (stepRecords s) = true := by
  by_cases hr : s.run = .run
  · have hop : classAtPc s = classify s.opcode := rfl
    by_cases hcls : classAtPc s = .unmapped
    · rw [stepRecords_of_unmapped hr hcls]
      simp [traceWf, traceWfFrom, hp hr, ← hop, hcls]
    · rw [stepRecords_of_mapped hr hcls]
      simp [traceWf, traceWfFrom, hp hr, ← hop, hcls]
  · rw [stepRecords_of_terminal hr]
    rfl

/-- Settles O21: a step appends a well-formed trace, and a running state that steps has its PC at an address. -/
theorem everyStepKeepsTheTraceWellFormed : Obligations.EveryStepKeepsTheTraceWellFormed := by
  intro s t hwf hstep
  rw [step_trace hstep]
  calc traceWf (s.trace ++ stepRecords s) = traceWf (stepRecords s) := traceWfFrom_append _ hwf
    _ = true := stepRecords_traceWf fun hr => pc_le_of_step hr hstep

end Sys2Proof.Machine
end

section
/-! The statements of 70_reset_and_hazards.md: the reset image (R240), the report (R262, R263), the image file (R258)
and the Memory Image Builder (R250 to R257). Before each, what the functions it names do, case by case. -/

namespace Sys2Proof.Machine

/-! ### The memory of an image -/

/-- The first byte of a list laid out from `k` is at `k`, also where it is not listed because it reads as unlisted. -/
theorem Memory.read_ofBytes_cons {k : Nat} {x : Byte} {xs : List Byte} (a : Nat) (hlen : k + 1 + xs.length ≤ 256) :
    (Memory.ofBytes k (x :: xs)).read a = if k = a then x else (Memory.ofBytes (k + 1) xs).read a := by
  rw [Memory.ofBytes]
  split
  next hx =>
    split
    next ha => rw [hx, ← ha, Memory.read_below (Memory.ofBytes_wfFrom xs (k + 1) hlen) k.lt_succ_self]
    next => rfl
  next => rfl

theorem Memory.read_ofBytes {xs : List Byte} {k j : Nat} (hlen : k + xs.length ≤ 256) (hj : j < xs.length) :
    (Memory.ofBytes k xs).read (k + j) = xs[j] := by
  induction xs generalizing k j with
  | nil => cases hj
  | cons x xs ih =>
    rw [List.length_cons] at hlen hj
    have htail : k + 1 + xs.length ≤ 256 := by omega
    rw [Memory.read_ofBytes_cons _ htail]
    cases j with
    | zero => exact if_pos rfl
    | succ j =>
      have haddr : k + (j + 1) = k + 1 + j := by omega
      rw [if_neg (by omega), haddr, ih htail (by omega), List.getElem_cons_succ]

/-- R35, R240: the memory of an image holds its bytes. -/
theorem Memory.read_ofImage (image : Image) {k : Nat} (h : k < 256) : (Memory.ofImage image).read k = image[k] := by
  have hread := Memory.read_ofBytes (xs := image.toList) (k := 0) (j := k) (by simp) (by simpa using h)
  rwa [Nat.zero_add, Vector.getElem_toList] at hread

/-- Settles O1: the memory is the image's (`Memory.read_ofImage`), and every other field is `State.reset`'s. -/
theorem resetCopiesTheImageAndZeroesTheRest : Obligations.ResetCopiesTheImageAndZeroesTheRest := fun image =>
  ⟨fun _ h => Memory.read_ofImage image h, rfl, rfl, rfl, rfl, rfl, rfl, rfl, rfl⟩

/-! ### The report -/

/-- R263, D20: the three classes divide the values of AC. -/
theorem classifyAc_cases (ac : Byte) :
    (classifyAc ac = .negative ∧ 128 ≤ ac.toNat) ∨ (classifyAc ac = .zero ∧ ac.toNat = 0) ∨
      (classifyAc ac = .positive ∧ 1 ≤ ac.toNat ∧ ac.toNat ≤ 127) := by
  have hzero : ac = 0 ↔ ac.toNat = 0 := BitVec.toNat_inj.symm
  simp only [classifyAc, bit7_eq, decide_eq_true_eq, hzero]
  split
  next hneg => exact .inl ⟨rfl, hneg⟩
  next hneg =>
    split
    next hz => exact .inr (.inl ⟨rfl, hz⟩)
    next hz => exact .inr (.inr ⟨rfl, by omega, by omega⟩)

theorem classifyAc_iff (ac : Byte) :
    (classifyAc ac = .negative ↔ 128 ≤ ac.toNat) ∧ (classifyAc ac = .zero ↔ ac.toNat = 0) ∧
      (classifyAc ac = .positive ↔ 1 ≤ ac.toNat ∧ ac.toNat ≤ 127) := by
  rcases classifyAc_cases ac with ⟨hcls, hac⟩ | ⟨hcls, hac⟩ | ⟨hcls, hac⟩ <;> simp [hcls] <;> omega

theorem State.report_of_running {s : State} (h : s.run = .run) : s.report = none := by
  simp [State.report, State.outcome, h]

/-- R31: each terminal state has the outcome that names it. -/
theorem State.outcome_of_terminal {s : State} (h : s.run ≠ .run) :
    ∃ o, s.outcome = some o ∧ (o = .halted ↔ s.run = .halted) ∧ (o = .ranOff ↔ s.run = .offend) ∧
      (o = .opFault ↔ s.run = .opfault) := by
  unfold State.outcome
  cases hr : s.run with
  | run => exact absurd hr h
  | halted => exact ⟨_, rfl, by decide⟩
  | offend => exact ⟨_, rfl, by decide⟩
  | opfault => exact ⟨_, rfl, by decide⟩

/-- R262: the fields of the report of a state that has an outcome. -/
theorem State.report_of_outcome {s : State} {o : RunOutcome} (h : s.outcome = some o) :
    s.report = some { memory := s.mem.dump, pc := s.pc, ac := s.ac, n := s.n, z := s.z, v := s.v, c := s.c, b := s.b,
                      acClass := classifyAc s.ac, outcome := o } := by
  simp [State.report, h]

/-- Settles O4: the report of a terminal state is written out by its outcome; the dump and the class of AC are read by
`Memory.dump_get` and `classifyAc_iff`. -/
theorem reportShowsTheFinalState : Obligations.ReportShowsTheFinalState := by
  refine fun s => ⟨State.report_of_running, fun hterm => ?_⟩
  obtain ⟨o, ho, hhalted, hoff, hfault⟩ := State.outcome_of_terminal hterm
  exact ⟨_, State.report_of_outcome ho, s.mem.dump_get, rfl, rfl, rfl, rfl, rfl, rfl, rfl, hhalted, hoff, hfault,
    classifyAc_iff s.ac⟩

/-! ### The image file -/

/-- On digits the model's reader computes the library's value of a decimal numeral. -/
theorem readDigits_of_digits {cs : List Char} (n : Nat) (h : ∀ c ∈ cs, c.isDigit = true) :
    readDigits n cs = some (Nat.ofDigitChars 10 cs n) := by
  induction cs generalizing n with
  | nil => rfl
  | cons c cs ih =>
    obtain ⟨hc, hcs⟩ := List.forall_mem_cons.mp h
    rw [readDigits, if_pos hc, ih _ hcs, Nat.ofDigitChars_cons]
    rfl

/-- The reader inverts `decimalLine` on every byte. -/
theorem readDecimalLine_decimalLine (x : Byte) : readDecimalLine (decimalLine x) = some x := by
  have hdigits : readDigits 0 (Nat.toDigits 10 x.toNat) = some x.toNat := by
    rw [readDigits_of_digits 0 fun _ hc => Nat.isDigit_of_mem_toDigits (by decide) (by decide) hc,
      Nat.ofDigitChars_ten_toDigits]
  simp [readDecimalLine, decimalLine, hdigits, x.isLt]

theorem mapM_readDecimalLine (xs : List Byte) : (xs.map decimalLine).mapM readDecimalLine = some xs := by
  induction xs with
  | nil => rfl
  | cons x xs ih => simp [readDecimalLine_decimalLine, ih]

theorem readImageFile_imageFile (image : Image) : readImageFile (imageFile image) = some image := by
  simp only [readImageFile, imageFile, mapM_readDecimalLine]
  rw [dif_pos image.length_toList]
  rfl

/-- Settles O5: the file maps `decimalLine` over the cells, and the reader inverts it line by line. -/
theorem imageFileRoundTrip : Obligations.ImageFileRoundTrip := by
  refine fun image => ⟨by simp [imageFile], fun k h => ?_, readImageFile_imageFile image⟩
  simp [imageFile, decimalLine, h]

/-! ### The scan of a line's tokens -/

section
variable {L : Loader} {t : Slots} {tok : Token}

/-- R252: the first token that is no integer is the mnemonic, in upper case. -/
theorem Slots.scan_mnemonic (htok : L.parseInt tok = none) (hmn : t.mn = none) :
    t.scan L tok = { t with mn := some (tok.map upperChar) } := by
  simp [Slots.scan, htok, hmn]

/-- R252: after the mnemonic the first integer is the operand. -/
theorem Slots.scan_operand {k : Int} (htok : L.parseInt tok = some k) (hmn : t.mn ≠ none) (hopd : t.operand = none) :
    t.scan L tok = { t with operand := some k } := by
  simp [Slots.scan, htok, hmn, hopd]

/-- R252: a mnemonic and an integer after it fill their two slots. -/
theorem Slots.scan_mnemonic_operand {opd : Token} {k : Int} (htok : L.parseInt tok = none)
    (hopd : L.parseInt opd = some k) :
    [tok, opd].foldl (Slots.scan L) Slots.empty =
      { num := none, mn := some (tok.map upperChar), operand := some k } := by
  rw [List.foldl_cons, Slots.scan_mnemonic htok rfl, List.foldl_cons, Slots.scan_operand hopd (by simp) rfl]
  rfl

end

/-! ### Placing a line -/

/-- R253: with no numeric opcode the mnemonic gives it. -/
theorem Slots.opcode_of_mnemonic {t : Slots} {mn : Token} (hnum : t.num = none) (hmn : t.mn = some mn) :
    t.opcode = mnemonicBase mn := by
  simp [Slots.opcode, hnum, hmn]

/-- R253, R254: an operand from 0 to 255 is its own byte, whatever the `Loader`. -/
theorem operandByte_of_le (L : Loader) {x : Nat} (h : x ≤ 255) : operandByte L x = some (BitVec.ofNat 8 x) := by
  have hrange : (0 : Int) ≤ x ∧ (x : Int) ≤ 255 := by omega
  rw [operandByte, if_pos hrange, BitVec.ofInt_natCast]

/-- R255: apart from UNMAPPED, the classes that drop the operand are those of one byte. -/
theorem dropsOperand_eq {cls : OpClass} (h : cls ≠ .unmapped) : dropsOperand cls = decide (cls.length ≠ 2) := by
  cases cls with
  | unmapped => exact absurd rfl h
  | nop | not | shr | shl | ror | rol | hlt => rfl
  | sta | lda | add | or | and | sub | jmp | jn | jp | jv | jnv | jz | jnz | jc | jnc | jb | jnb => rfl

/-- R84: no mnemonic's base value is an unmapped byte. -/
theorem classify_mnemonicBase_ne_unmapped {mn : Token} {base : Byte} (h : mnemonicBase mn = some base) :
    classify base ≠ .unmapped := by
  have htable : ∀ row ∈ mnemonicTable, classify row.2 ≠ .unmapped := by decide
  obtain ⟨before, after, hrows, -⟩ := List.lookup_eq_some_iff.mp h
  exact htable (mn, base) (hrows ▸ List.mem_append_right before List.mem_cons_self)

/-- R255: a class without an operand byte drops the operand. -/
theorem placeLine_of_drops {L : Loader} {t : Slots} {op : Byte} (image : Image) (k : Nat) (hop : t.opcode = some op)
    (hdrops : dropsOperand (classify op) = true) : placeLine L image k t = image.setIfInBounds k op := by
  simp [placeLine, hop, hdrops]

/-- R254: the opcode at the address, and an operand from 0 to 255 at the next one. -/
theorem placeLine_of_operand {L : Loader} {t : Slots} {op : Byte} {x : Nat} (image : Image) (k : Nat)
    (hop : t.opcode = some op) (hdrops : dropsOperand (classify op) = false) (hopd : t.operand = some (x : Int))
    (hx : x ≤ 255) :
    placeLine L image k t = (image.setIfInBounds k op).setIfInBounds (k + 1) (BitVec.ofNat 8 x) := by
  simp [placeLine, hop, hdrops, hopd, operandByte_of_le L hx]

/-- R254, R255: the cells after a line with an opcode and an operand from 0 to 255 is placed at `k`. -/
theorem placeLine_getElem {L : Loader} {t : Slots} {op : Byte} {x : Nat} (image : Image) (k : Nat)
    (hop : t.opcode = some op) (hopd : t.operand = some (x : Int)) (hx : x ≤ 255) {j : Nat} (hj : j < 256) :
    (placeLine L image k t)[j] =
      if j = k then op
      else if j = k + 1 ∧ dropsOperand (classify op) = false then BitVec.ofNat 8 x
      else image[j] := by
  cases hdrops : dropsOperand (classify op) with
  | true => simp [placeLine_of_drops image k hop hdrops, Vector.getElem_setIfInBounds hj, eq_comm]
  | false =>
    rw [placeLine_of_operand image k hop hdrops hopd hx, Vector.getElem_setIfInBounds hj,
      Vector.getElem_setIfInBounds hj]
    by_cases hk : j = k
    · simp [hk]
    · simp [hk, Ne.symm hk, eq_comm]

/-! ### One line of the builder -/

section
variable {L : Loader} {line : List Char}

/-- R251, R254: a line with an address and one more token is placed by the scan of what follows the address. -/
theorem buildLine_of_address {addr tok : Token} {toks : List Token} {k : Nat} (image : Image)
    (hline : tokens line = addr :: tok :: toks) (haddr : L.parseInt addr = some (k : Int)) (hk : k ≤ 255) :
    buildLine L image line = placeLine L image k ((tok :: toks).foldl (Slots.scan L) Slots.empty) := by
  have hrange : (0 : Int) ≤ k ∧ (k : Int) ≤ 255 := by omega
  simp only [buildLine, hline, haddr, if_pos hrange, Int.toNat_natCast]

/-- R251: fewer than two tokens. -/
theorem buildLine_of_short (image : Image) (h : (tokens line).length < 2) : buildLine L image line = image := by
  match htoks : tokens line with
  | [] | [_] => simp only [buildLine, htoks]
  | _ :: _ :: _ => simp [htoks] at h

/-- R251: a first token that is no address. -/
theorem buildLine_of_no_address {addr : Token} (image : Image) (hhead : (tokens line).head? = some addr)
    (haddr : ∀ k : Int, L.parseInt addr = some k → k < 0 ∨ 255 < k) : buildLine L image line = image := by
  match htoks : tokens line with
  | [] | [_] => exact buildLine_of_short image (by simp [htoks])
  | addr' :: tok :: toks =>
    obtain rfl : addr' = addr := by simpa [htoks] using hhead
    cases hk : L.parseInt addr' with
    | none => simp [buildLine, htoks, hk]
    | some k =>
      have hrange : ¬ (0 ≤ k ∧ k ≤ 255) := by have := haddr k hk; omega
      simp only [buildLine, htoks, hk, if_neg hrange]

end

/-- Settles O6: the scan fills the mnemonic and the operand, and a mnemonic's class drops its operand exactly when it
has one byte. -/
theorem builderPlacesAMnemonicLine : Obligations.BuilderPlacesAMnemonicLine := by
  intro L image line addr mn opd k x base hline haddr hk hmn hbase hopd hx j hj
  have hbuild : buildLine L image line =
      placeLine L image k { num := none, mn := some (mn.map upperChar), operand := some (x : Int) } := by
    rw [buildLine_of_address image hline haddr hk, Slots.scan_mnemonic_operand hmn hopd]
  have hdrops := dropsOperand_eq (classify_mnemonicBase_ne_unmapped hbase)
  rw [hbuild, placeLine_getElem image k ((Slots.opcode_of_mnemonic rfl rfl).trans hbase) rfl hx hj, hdrops]
  simp only [decide_eq_false_iff_not, not_not]

/-- Settles O7: the two skips of R251, and the all-zero image of a text without lines (R250, R256). -/
theorem builderSkipsMalformedLines : Obligations.BuilderSkipsMalformedLines := fun _ image _ =>
  ⟨buildLine_of_short image, fun _ => buildLine_of_no_address image, fun _ hj => Vector.getElem_replicate hj⟩

end Sys2Proof.Machine
end
